-- ==== Sys2Proof/Word.lean ====
section
/-! DEFINITION. The widths of the block's values (00_scope.md R9: all values are unsigned). -/

namespace Sys2Proof

/-- `u8`: a byte of the stream, a header or payload byte, the `din` operand (R9). -/
abbrev Byte := BitVec 8

/-- `u16`: a checksum, `crc_rx`, `crc_acc`, the `seed` operand (R9, R20). -/
abbrev Crc := BitVec 16

/-- `u24`: a message id (R65). -/
abbrev MsgId := BitVec 24

/-- The 27-bit command word of 30_encoding.md R59. -/
abbrev CmdWord := BitVec 27

end Sys2Proof
end

