-- ==== Sys2Proof/Config.lean ====
section
/-! DEFINITION. The implementation parameters of 00_scope.md R6, as configuration constants that the
operations take as an argument (R8: each literal stays a named constant). The values of this hardware
are `Config.hw` in Sys2Proof/Machine/Params.lean. -/

namespace Sys2Proof

/-- The parameters of R6, one field each. -/
structure Config where
  /-- `SYNC_V2`: the sync byte that selects version-2 framing. -/
  syncV2 : Byte
  /-- `SYNC_V1`: the sync byte that selects version-1 framing. -/
  syncV1 : Byte
  /-- `HLEN_V2`: the version-2 header length, sync byte excluded. -/
  hlenV2 : Nat
  /-- `HLEN_V1`: the version-1 header length, sync byte excluded. -/
  hlenV1 : Nat
  /-- `MAX_PAYLOAD`: the maximum declared payload length and the payload buffer's size. -/
  maxPayload : Nat
  /-- `SIG_LEN`: the signature bytes of a signed version-2 frame. -/
  sigLen : Nat
  /-- `CRC_SEED`: the seed of a frame's checksum. -/
  crcSeed : Crc
  /-- `MSGID_HEARTBEAT`. -/
  msgidHeartbeat : MsgId
  /-- `MSGID_STATUSTEXT` (decision D8). -/
  msgidStatustext : MsgId
  /-- `EXTRA` at `MSGID_HEARTBEAT`. -/
  extraHeartbeat : Byte
  /-- `EXTRA` at `MSGID_STATUSTEXT`. -/
  extraStatustext : Byte
  /-- `CRC_TMP_MASK`: the width mask of the CRC temporary (decision D6, conflict C1). -/
  crcTmpMask : Crc
  /-- `SIGNED_BIT`: the bit of version-2 header byte 1 that marks a signed frame. -/
  signedBit : Nat
deriving DecidableEq, Repr

end Sys2Proof
end

