-- ==== Sys2Proof/Machine/Params.lean ====
section
/-! DEFINITION. The parameter values of this hardware (00_scope.md R6; assumption log 12). -/

namespace Sys2Proof

/-- The values of R6's table. -/
def Config.hw : Config where
  syncV2 := 0xFD#8
  syncV1 := 0xFE#8
  hlenV2 := 9
  hlenV1 := 5
  maxPayload := 255
  sigLen := 13
  crcSeed := 0xFFFF#16
  msgidHeartbeat := 0#24
  msgidStatustext := 253#24
  extraHeartbeat := 50#8
  extraStatustext := 83#8
  crcTmpMask := 0x00FF#16
  signedBit := 0

end Sys2Proof
end

