-- ==== Sys2Proof/Syntax.lean ====
section
/-! DEFINITION. The six parser states and the instructions: one constructor for each row of
spec/opcode_table.json. A field that a command ignores (30_encoding.md R59) is no argument. -/

namespace Sys2Proof

/-- The FD's ParserState (10_state.md R22). Codes 6 and 7 are never reached and are not expressible
(93_implementation_defined.md row 10). -/
inductive ParserState where
  | awaitSync
  | header
  | payload
  | checksumLow
  | checksumHigh
  | signature
deriving DecidableEq, Repr

/-- The commands of 30_encoding.md R56, with DEC_BYTE split into the sub-operations of R78. -/
inductive Instr where
  /-- `NOP` (41_decoder.md R111). -/
  | nop
  /-- `DEC_CLEAR` (R110). -/
  | decClear
  /-- `CRC_SEED` (40_crc.md R86). -/
  | crcSeed (seed : Crc)
  /-- `CRC_ACC` (R87). -/
  | crcAcc (din : Byte)
  /-- `DEC_BYTE.SYNC_V2` (41_decoder.md R96); its `din` is `SYNC_V2`. -/
  | decSyncV2
  /-- `DEC_BYTE.SYNC_V1` (R97); its `din` is `SYNC_V1`. -/
  | decSyncV1
  /-- `DEC_BYTE.DISCARD` (R98); its `din` is no sync byte. -/
  | decDiscard (din : Byte)
  /-- `DEC_BYTE.HEADER_BYTE` (R99 to R102). -/
  | decHeaderByte (din : Byte)
  /-- `DEC_BYTE.PAYLOAD_BYTE` (R103). -/
  | decPayloadByte (din : Byte)
  /-- `DEC_BYTE.CKSUM_LO` (R104). -/
  | decCksumLo (din : Byte)
  /-- `DEC_BYTE.CKSUM_HI` (R105). -/
  | decCksumHi (din : Byte)
  /-- `DEC_BYTE.SIG_BYTE` (R106). -/
  | decSigByte (din : Byte)
  /-- `RESERVED_011` (30_encoding.md R58). -/
  | reserved011
  /-- `RESERVED_110` (R58). -/
  | reserved110
  /-- `RESERVED_111` (R58). -/
  | reserved111
deriving DecidableEq, Repr

end Sys2Proof
end

