-- ==== Sys2Proof/WellFormed.lean ====
section
/-! DEFINITION. The checks on an instruction as syntax. Operand widths are in the types; the one check left
is that DISCARD's byte is no sync byte: the SYNC rows take priority (41_decoder.md R98). -/

namespace Sys2Proof

/-- `din` is neither sync byte. -/
def notSync (c : Config) (din : Byte) : Bool := din != c.syncV2 && din != c.syncV1

/-- Well-formedness of an instruction. -/
def Instr.wellFormed (c : Config) : Instr → Bool
  | .nop => true
  | .decClear => true
  | .crcSeed _ => true
  | .crcAcc _ => true
  | .decSyncV2 => true
  | .decSyncV1 => true
  | .decDiscard din => notSync c din
  | .decHeaderByte _ => true
  | .decPayloadByte _ => true
  | .decCksumLo _ => true
  | .decCksumHi _ => true
  | .decSigByte _ => true
  | .reserved011 => true
  | .reserved110 => true
  | .reserved111 => true

end Sys2Proof
end

