-- ==== Sys2Proof/Decode.lean ====
section
/-! DEFINITION. From command words to instructions and back (30_encoding.md R56, R59, R78), with the rows of
spec/opcode_table.json as masks and patterns. The decoder is total on the 27-bit words of the port; a number
of more than 27 bits is rejected by name. -/

namespace Sys2Proof

/-- `cmd = word[2:0]` (R59). -/
def cmdField (w : CmdWord) : BitVec 3 := w.extractLsb' 0 3

/-- `din = word[10:3]` (R59). -/
def dinField (w : CmdWord) : Byte := w.extractLsb' 3 8

/-- `seed = word[26:11]` (R59). -/
def seedField (w : CmdWord) : Crc := w.extractLsb' 11 16

/-- The command word `{seed, din, cmd}` of the three port fields (R59). -/
def packWord (cmd : BitVec 3) (din : Byte) (seed : Crc) : CmdWord := seed ++ din ++ cmd

/-- The DEC_BYTE rows: selected by `st` and, in AwaitSync, by `din` (R78). -/
def decodeByte (c : Config) (st : ParserState) (din : Byte) : Instr :=
  match st with
  | .awaitSync =>
    if din = c.syncV2 then .decSyncV2
    else if din = c.syncV1 then .decSyncV1
    else .decDiscard din
  | .header => .decHeaderByte din
  | .payload => .decPayloadByte din
  | .checksumLow => .decCksumLo din
  | .checksumHigh => .decCksumHi din
  | .signature => .decSigByte din

/-- The decoder: first on `cmd` (R56), then a DEC_BYTE on the parser state (R78). Fields that the command
does not name are ignored (R59). -/
def decode (c : Config) (st : ParserState) (w : CmdWord) : Instr :=
  match (cmdField w).toNat with
  | 0 => .nop
  | 1 => decodeByte c st (dinField w)
  | 2 => .decClear
  | 3 => .reserved011
  | 4 => .crcSeed (seedField w)
  | 5 => .crcAcc (dinField w)
  | 6 => .reserved110
  | _ => .reserved111

/-- Why a number is no command word. -/
inductive DecodeError where
  /-- The number has a bit above bit 26, and the port has no line for it (R55, R59); log 13. -/
  | notACommandWord
deriving DecidableEq, Repr

/-- The command word that a number writes (R59: 27 bits). -/
def wordOfNumber (w : Nat) : Except DecodeError CmdWord :=
  if w < 2 ^ 27 then .ok (BitVec.ofNat 27 w) else .error .notACommandWord

/-- The instruction of a word as the table numbers its bits, in the parser state of reset (AwaitSync,
70_reset_and_hazards.md R150). The table's rows of DEC_BYTE in other states have the pattern of DISCARD: a
word alone does not tell them apart (R78); log 6. -/
def decodeTableWord (_nbits w : Nat) : Option Instr :=
  match wordOfNumber w with
  | .ok cw => some (decode Config.hw .awaitSync cw)
  | .error _ => none

/-- The parser state that a row's match names (R78); `none` for a row without one. -/
def Instr.rowState : Instr → Option ParserState
  | .nop => none
  | .decClear => none
  | .crcSeed _ => none
  | .crcAcc _ => none
  | .decSyncV2 => some .awaitSync
  | .decSyncV1 => some .awaitSync
  | .decDiscard _ => some .awaitSync
  | .decHeaderByte _ => some .header
  | .decPayloadByte _ => some .payload
  | .decCksumLo _ => some .checksumLow
  | .decCksumHi _ => some .checksumHigh
  | .decSigByte _ => some .signature
  | .reserved011 => none
  | .reserved110 => none
  | .reserved111 => none

/-- The instruction's row is one that the parser state `st` selects from (R78). -/
def Instr.selectedIn (st : ParserState) (i : Instr) : Bool :=
  match i.rowState with
  | none => true
  | some r => r == st

/-- The encoder: the canonical word of an instruction, ignored fields 0 (R59). -/
def encode (c : Config) : Instr → CmdWord
  | .nop => packWord 0b000#3 0#8 0#16
  | .decClear => packWord 0b010#3 0#8 0#16
  | .crcSeed seed => packWord 0b100#3 0#8 seed
  | .crcAcc din => packWord 0b101#3 din 0#16
  | .decSyncV2 => packWord 0b001#3 c.syncV2 0#16
  | .decSyncV1 => packWord 0b001#3 c.syncV1 0#16
  | .decDiscard din => packWord 0b001#3 din 0#16
  | .decHeaderByte din => packWord 0b001#3 din 0#16
  | .decPayloadByte din => packWord 0b001#3 din 0#16
  | .decCksumLo din => packWord 0b001#3 din 0#16
  | .decCksumHi din => packWord 0b001#3 din 0#16
  | .decSigByte din => packWord 0b001#3 din 0#16
  | .reserved011 => packWord 0b011#3 0#8 0#16
  | .reserved110 => packWord 0b110#3 0#8 0#16
  | .reserved111 => packWord 0b111#3 0#8 0#16

/-- One row of spec/opcode_table.json: its mask and its pattern, and the patterns it excludes. -/
structure Row where
  mask : CmdWord
  pattern : CmdWord
  /-- The rows that take priority over this one, as (mask, pattern). -/
  exclude : List (CmdWord × CmdWord)
deriving DecidableEq, Repr

/-- A row whose only fixed field is `cmd`. -/
def Row.ofCmd (pattern : CmdWord) : Row := { mask := 0x0000007#27, pattern := pattern, exclude := [] }

/-- The table's row of an instruction (`mask`, `match` and `exclude` as the table prints them). -/
def Instr.row : Instr → Row
  | .nop => Row.ofCmd 0x0000000#27
  | .decClear => Row.ofCmd 0x0000002#27
  | .crcSeed _ => Row.ofCmd 0x0000004#27
  | .crcAcc _ => Row.ofCmd 0x0000005#27
  | .decSyncV2 => { mask := 0x00007FF#27, pattern := 0x00007E9#27, exclude := [] }
  | .decSyncV1 => { mask := 0x00007FF#27, pattern := 0x00007F1#27, exclude := [] }
  | .decDiscard _ =>
    { Row.ofCmd 0x0000001#27 with
      exclude := [(0x00007FF#27, 0x00007E9#27), (0x00007FF#27, 0x00007F1#27)] }
  | .decHeaderByte _ => Row.ofCmd 0x0000001#27
  | .decPayloadByte _ => Row.ofCmd 0x0000001#27
  | .decCksumLo _ => Row.ofCmd 0x0000001#27
  | .decCksumHi _ => Row.ofCmd 0x0000001#27
  | .decSigByte _ => Row.ofCmd 0x0000001#27
  | .reserved011 => Row.ofCmd 0x0000003#27
  | .reserved110 => Row.ofCmd 0x0000006#27
  | .reserved111 => Row.ofCmd 0x0000007#27

/-- The word matches the row: its fixed bits, and none of the patterns that the row excludes. -/
def Row.covers (r : Row) (w : CmdWord) : Bool :=
  (w &&& r.mask == r.pattern) && r.exclude.all fun e => w &&& e.1 != e.2

end Sys2Proof
end

