-- ==== Sys2Proof/Machine/State.lean ====
section
/-! DEFINITION. The state of the block (10_state.md R20), its step results (30_encoding.md R57), and the
reasons a step can stop (60_exceptions.md R139, R140). All of it is plain data. -/

namespace Sys2Proof.Machine

/-- A capture buffer (20_memory.md R40): the bytes that hold a value, by byte index, indices strictly rising.
A byte that is not listed is `⊥`. -/
abbrev Memory := List Host.Cell

/-- The canonical form: strictly rising indices. (An unlisted byte reads as no value, so no entry can equal
what an unlisted byte reads as.) -/
def Memory.wf : Memory → Bool
  | [] => true
  | [_] => true
  | a :: b :: rest => decide (a.1 < b.1) && Memory.wf (b :: rest)

/-- The causes of a frame rejection (60_exceptions.md R131 to R133). -/
inductive RejCause where
  | oversize
  | noExtra
  | crcMismatch
deriving DecidableEq, Repr

/-- A Message (30_encoding.md R75). `payload` holds the bytes `msg_payload[0..msg_len)`; the port's bytes
from `msg_len` up are `⊥` (R55). -/
structure Message where
  msgid : MsgId
  sysid : Byte
  compid : Byte
  len : Byte
  payload : List Byte
  v2 : Bool
  signed : Bool
deriving DecidableEq, Repr

/-- What a step emits on `res`, `rej_cause` and `msg_*` (R57): a cause comes only with FRAME_REJECTED and a
Message only with FRAME_READY. -/
inductive Result where
  | none
  | needMore
  | frameRejected (cause : RejCause)
  | frameReady (msg : Message)
deriving DecidableEq, Repr

/-- Why a step of the model ends in a fault. -/
inductive Fault where
  /-- `CRC_UNSEEDED`, the spec's one fault (60_exceptions.md R139; 93_implementation_defined.md row 5): raised by
  CRC_ACC while `crc_acc = ⊥`, "if crc_acc = ⊥ then raise Fault(CRC_UNSEEDED)" (40_crc.md R87), and by a reader of
  `crc_out` there. Safe: the spec's own step stops here, and on the hardware the value is unknown. -/
  | crcUnseeded
  /-- A DEC_BYTE of a state that no run reaches reads a buffer byte that holds no value (00_scope.md R14).
  Safe: the model stops; log 2. -/
  | unwrittenByte
  /-- A DEC_BYTE of a state that no run reaches has a counter outside its buffer (20_memory.md R40).
  Safe: the model stops; log 8. -/
  | noSuchByte
deriving DecidableEq, Repr

/-- Why a step of the model is refused. -/
inductive Refusal where
  /-- An instruction that has no meaning yet; raised by Machine/Dispatch.lean only. Safe: the model stops. -/
  | notModelled (mnemonic : String)
  /-- `RESERVED_CMD` (60_exceptions.md R140): raised by the three reserved rows. Safe: the spec refuses them. -/
  | reservedCmd
deriving DecidableEq, Repr

/-- The state: the ten elements of 10_state.md R20, then the model's own two fields (logs 4 and 5). -/
structure State where
  /-- `st`, the ParserState (R22). -/
  st : ParserState
  /-- `ver2`, 1 for a version-2 frame (R23). -/
  ver2 : Bool
  /-- `hidx`, u4: header bytes captured (R25). -/
  hidx : BitVec 4
  /-- `hdr[0..9)`, the header capture buffer (R26). -/
  hdr : Memory
  /-- `pidx`, u8: payload bytes captured (R28). -/
  pidx : BitVec 8
  /-- `pay[0..255)`, the payload capture buffer (R27). -/
  pay : Memory
  /-- `crc_rx`, the checksum that the frame carries (R30). -/
  crcRx : Crc
  /-- `sgn`, the signed-frame flag (R31). -/
  sgn : Bool
  /-- `sidx`, u4: signature bytes discarded (R32). -/
  sidx : BitVec 4
  /-- `crc_acc`, the CU accumulator; `none` is the `⊥` that CRC_ACC tests (R33, 40_crc.md R87; log 3). -/
  crcAcc : Option Crc
  /-- The model's own: the command words still to be presented at the port, oldest first (log 4). -/
  input : List CmdWord
  /-- The model's own: `res`, `rej_cause` and `msg_*` of the last step; no rule reads it (R36; log 5). -/
  out : Result
deriving DecidableEq, Repr

/-- Power-on reset (70_reset_and_hazards.md R150, R151): `st` is AwaitSync, the buffers and `crc_acc` are `⊥`,
the outputs are those of a NONE step. The values of the other FD registers are the model's (log 1). -/
def State.reset : State where
  st := .awaitSync
  ver2 := false
  hidx := 0#4
  hdr := []
  pidx := 0#8
  pay := []
  crcRx := 0#16
  sgn := false
  sidx := 0#4
  crcAcc := none
  input := []
  out := .none

end Sys2Proof.Machine
end

