-- ==== Sys2Proof/Machine/Ops.lean ====
section
/-! DEFINITION. The named operations over the capture buffers and the registers: every read and write of the
state goes through them. Taking a rejection, the block's analogue of an exception, is one of them. -/

namespace Sys2Proof.Machine

/-- What a buffer byte that nothing has written reads as: no value (00_scope.md R14; log 2). -/
def unlistedByte : Option Byte := none

/-- Read the byte at an index (20_memory.md R40). -/
def Memory.read : Memory → Nat → Option Byte
  | [], _ => unlistedByte
  | (k, v) :: rest, a => if k = a then some v else Memory.read rest a

/-- Write the byte at an index, keeping the canonical form. -/
def Memory.write : Memory → Nat → Byte → Memory
  | [], a, v => [(a, v)]
  | (k, w) :: rest, a, v =>
    if k = a then (a, v) :: rest
    else if a < k then (a, v) :: (k, w) :: rest
    else (k, w) :: Memory.write rest a v

/-- `MemWrite(buf+a, 1, v)` (00_scope.md R12) on a buffer of `size` bytes; `none` where the buffer has no such
byte (20_memory.md R40). -/
def Memory.store (size : Nat) (m : Memory) (a : Nat) (v : Byte) : Option Memory :=
  if a < size then some (Memory.write m a v) else none

/-- The `n` bytes from index `a` on; `none` if one of them holds no value. -/
def Memory.readFrom (m : Memory) (a : Nat) : Nat → Option (List Byte)
  | 0 => some []
  | n + 1 =>
    match Memory.read m a with
    | none => none
    | some b =>
      match Memory.readFrom m (a + 1) n with
      | none => none
      | some bs => some (b :: bs)

/-- `buf[0..n)` (00_scope.md R11). -/
def Memory.firstBytes (m : Memory) (n : Nat) : Option (List Byte) := Memory.readFrom m 0 n

/-- `crc_rx[7:0] <- b` (10_state.md R30). -/
def withLowByte (crc : Crc) (b : Byte) : Crc := crc.extractLsb' 8 8 ++ b

/-- `crc_rx[15:8] <- b` (10_state.md R30). -/
def withHighByte (crc : Crc) (b : Byte) : Crc := b ++ crc.extractLsb' 0 8

/-- `emit r` (00_scope.md R12): the step's outputs. -/
def emit (r : Result) (s : State) : State := { s with out := r }

/-- End a frame: back to AwaitSync, with the frame's result (41_decoder.md R107, R109). -/
def endFrame (r : Result) (s : State) : State := emit r { s with st := .awaitSync }

/-- Take a rejection (60_exceptions.md R137): `st <- AwaitSync`, FRAME_REJECTED with its cause, nothing saved.
There is no return command: the next DEC_BYTE is handled from AwaitSync (R138). -/
def takeRejection (cause : RejCause) (s : State) : State := endFrame (.frameRejected cause) s

/-- `crc_out` is `crc_acc` after the step (10_state.md R36, 40_crc.md R88). -/
def State.crcOut (s : State) : Option Crc := s.crcAcc

/-- A consumer's read of `crc_out`; it is no command, and no step calls it. "CRC_ACC raises it when `crc_acc` is `⊥`
[…], and so does a claim that reads `crc_out` while it is `⊥`" (60_exceptions.md R139). -/
def readCrcOut (s : State) : Except Fault Crc :=
  match s.crcOut with
  | none => .error .crcUnseeded
  | some v => .ok v

/-- A step that needs a buffer byte's value stops where there is none (00_scope.md R14). -/
def orUnwritten (o : Option State) : Host.Outcome State Fault Refusal :=
  match o with
  | none => .fault .unwrittenByte
  | some s => .next s

end Sys2Proof.Machine
end

