-- ==== Sys2Proof/Machine/Control.lean ====
section
/-! DEFINITION. The control commands NOP and DEC_CLEAR (41_decoder.md R110, R111) and the reserved command codes
(30_encoding.md R58). -/

namespace Sys2Proof.Machine

/-- NOP: emit NONE (R111). -/
def execNop (s : State) : Host.Outcome State Fault Refusal := .next (emit .none s)

/-- DEC_CLEAR: `st <- AwaitSync`, emit NONE; nothing else is written (R110). -/
def execDecClear (s : State) : Host.Outcome State Fault Refusal :=
  .next (emit .none { s with st := .awaitSync })

/-- `refuse(RESERVED_CMD)` (R58, 60_exceptions.md R140). -/
def refuseReserved (_s : State) : Host.Outcome State Fault Refusal := .refused .reservedCmd

/-- `cmd = 011` (R58). -/
def execReserved011 (s : State) : Host.Outcome State Fault Refusal := refuseReserved s

/-- `cmd = 110` (R58). -/
def execReserved110 (s : State) : Host.Outcome State Fault Refusal := refuseReserved s

/-- `cmd = 111` (R58). -/
def execReserved111 (s : State) : Host.Outcome State Fault Refusal := refuseReserved s

end Sys2Proof.Machine
end

