-- ==== Sys2Proof/Machine/Operands.lean ====
section
/-! DEFINITION. The values that the rules assemble: the header length, the header fields (30_encoding.md R63 to
R68), and the bit encodings of the state and the outputs (10_state.md R22, 30_encoding.md R57). -/

namespace Sys2Proof.Machine

/-- `HLEN = (ver2 ? HLEN_V2 : HLEN_V1)` (10_state.md R24). -/
def hlen (c : Config) (ver2 : Bool) : Nat := if ver2 then c.hlenV2 else c.hlenV1

/-- The size of `hdr`: the longer header, 9 bytes (10_state.md R20, 20_memory.md R40). -/
def hdrSize (c : Config) : Nat := max c.hlenV1 c.hlenV2

/-- `hdr[i]`. -/
def hdrByte (s : State) (i : Nat) : Option Byte := Memory.read s.hdr i

/-- The declared payload length `L = hdr[0]` (30_encoding.md R63). -/
def declaredLen (s : State) : Option Byte := hdrByte s 0

/-- `{b2, b1, b0}`: the little-endian 24-bit value whose first wire byte is `b0` (20_memory.md R42). -/
def le24 (b0 b1 b2 : Byte) : MsgId := b2 ++ b1 ++ b0

/-- The message id (30_encoding.md R65). -/
def msgidOf (s : State) : Option MsgId :=
  if s.ver2 then
    match hdrByte s 6, hdrByte s 7, hdrByte s 8 with
    | some b0, some b1, some b2 => some (le24 b0 b1 b2)
    | _, _, _ => none
  else (hdrByte s 4).map fun b => b.zeroExtend 24

/-- The source system id (30_encoding.md R66). -/
def sysidOf (s : State) : Option Byte := if s.ver2 then hdrByte s 4 else hdrByte s 2

/-- The source component id (30_encoding.md R66). -/
def compidOf (s : State) : Option Byte := if s.ver2 then hdrByte s 5 else hdrByte s 3

/-- The captured header `hdr[0..HLEN)`. -/
def headerOf (c : Config) (s : State) : Option (List Byte) := Memory.firstBytes s.hdr (hlen c s.ver2)

/-- The captured payload `pay[0..hdr[0])`. -/
def payloadOf (s : State) : Option (List Byte) :=
  match declaredLen s with
  | none => none
  | some l => Memory.firstBytes s.pay l.toNat

/-- The extra byte table `EXTRA` (30_encoding.md R68). -/
def extraOf (c : Config) (m : MsgId) : Option Byte :=
  if m = c.msgidHeartbeat then some c.extraHeartbeat
  else if m = c.msgidStatustext then some c.extraStatustext
  else none

/-- The Message of the captured frame (41_decoder.md R108, 30_encoding.md R75). -/
def messageOf (s : State) (m : MsgId) : Option Message :=
  match sysidOf s, compidOf s, declaredLen s, payloadOf s with
  | some sysid, some compid, some len, some payload =>
    some { msgid := m, sysid := sysid, compid := compid, len := len, payload := payload,
           v2 := s.ver2, signed := s.sgn }
  | _, _, _, _ => none

/-- The 3-bit encoding of `st` (10_state.md R22). -/
def stCode : ParserState → BitVec 3
  | .awaitSync => 0#3
  | .header => 1#3
  | .payload => 2#3
  | .checksumLow => 3#3
  | .checksumHigh => 4#3
  | .signature => 5#3

/-- `res[1:0]` (30_encoding.md R57). -/
def Result.res : Result → BitVec 2
  | .none => 0b00#2
  | .needMore => 0b01#2
  | .frameRejected _ => 0b10#2
  | .frameReady _ => 0b11#2

/-- The code of a cause (30_encoding.md R57). -/
def RejCause.code : RejCause → BitVec 2
  | .oversize => 0b01#2
  | .noExtra => 0b10#2
  | .crcMismatch => 0b11#2

/-- `rej_cause[1:0]`: NONE (00) whenever `res != FRAME_REJECTED` (30_encoding.md R57). -/
def Result.rejCause : Result → BitVec 2
  | .none => 0b00#2
  | .needMore => 0b00#2
  | .frameRejected cause => cause.code
  | .frameReady _ => 0b00#2

/-- The `msg_*` outputs: a Message with FRAME_READY, `⊥` otherwise (30_encoding.md R57). -/
def Result.msg : Result → Option Message
  | .none => Option.none
  | .needMore => Option.none
  | .frameRejected _ => Option.none
  | .frameReady m => some m

/-- Byte `i` of the port `msg_payload`; `⊥` from `msg_len` up (30_encoding.md R55). -/
def Message.payloadPort (m : Message) (i : Nat) : Option Byte := m.payload[i]?

/-- The output port of R55; `none` in a field is `⊥`. -/
structure PortOut where
  res : BitVec 2
  rejCause : BitVec 2
  msgMsgid : Option (BitVec 24)
  msgSysid : Option (BitVec 8)
  msgCompid : Option (BitVec 8)
  msgLen : Option (BitVec 8)
  msgV2 : Option (BitVec 1)
  msgSigned : Option (BitVec 1)
  /-- The 255 bytes of `msg_payload`. -/
  msgPayload : List (Option (BitVec 8))
  crcOut : Option (BitVec 16)
deriving DecidableEq, Repr

/-- The output port after a step that left the state `s` (30_encoding.md R55, R57; 10_state.md R36). -/
def portOut (c : Config) (s : State) : PortOut where
  res := s.out.res
  rejCause := s.out.rejCause
  msgMsgid := s.out.msg.map Message.msgid
  msgSysid := s.out.msg.map Message.sysid
  msgCompid := s.out.msg.map Message.compid
  msgLen := s.out.msg.map Message.len
  msgV2 := s.out.msg.map fun m => BitVec.ofBool m.v2
  msgSigned := s.out.msg.map fun m => BitVec.ofBool m.signed
  msgPayload := (List.range c.maxPayload).map fun i => s.out.msg.bind fun m => m.payloadPort i
  crcOut := s.crcOut

end Sys2Proof.Machine
end

