-- ==== Sys2Proof/Machine/Checksum.lean ====
section
/-! DEFINITION. The checksum unit (40_crc.md): the CRC functions and the meanings of CRC_SEED and CRC_ACC. -/

namespace Sys2Proof.Machine

/-- `crc_step` (R80), with the width mask of the CRC temporary as an argument (R90). The temporary has 16 bits
here, so that the mask alone decides its width. -/
def crcStep (mask : Crc) (crc : Crc) (b : Byte) : Crc :=
  let t1 : Crc := (b ^^^ crc.extractLsb' 0 8).zeroExtend 16
  let t : Crc := (t1 ^^^ (t1 <<< 4)) &&& mask
  (crc >>> 8) ^^^ (t <<< 8) ^^^ (t <<< 3) ^^^ (t >>> 4)

/-- `accumulate` (R82): `crc_step` over a byte sequence, first to last, from a seed. -/
def accumulate (mask : Crc) : List Byte → Crc → Crc
  | [], seed => seed
  | b :: rest, seed => accumulate mask rest (crcStep mask seed b)

/-- `frame_crc` of given header bytes, payload bytes and extra byte (R84, 30_encoding.md R69). -/
def frameCrc (c : Config) (header payload : List Byte) (extra : Byte) : Crc :=
  accumulate c.crcTmpMask (header ++ payload ++ [extra]) c.crcSeed

/-- `frame_crc` of the captured frame (R84). -/
def frameCrcOf (c : Config) (s : State) (extra : Byte) : Option Crc :=
  match headerOf c s, payloadOf s with
  | some header, some payload => some (frameCrc c header payload extra)
  | _, _ => none

/-- One round of the table's construction (R85). -/
def crcRound (c : Crc) : Crc := if c.getLsbD 0 then (c >>> 1) ^^^ 0x8408#16 else c >>> 1

/-- `n` rounds. -/
def crcRounds : Nat → Crc → Crc
  | 0, c => c
  | n + 1, c => crcRounds n (crcRound c)

/-- `T[i]` (R85): eight rounds from `i`. -/
def crcTable (i : Byte) : Crc := crcRounds 8 (i.zeroExtend 16)

/-- The table form of `crc_step` (R85), one of the realisations that R89 allows. -/
def crcStepByTable (crc : Crc) (b : Byte) : Crc := (crc >>> 8) ^^^ crcTable (crc.extractLsb' 0 8 ^^^ b)

/-- CRC_SEED: `crc_acc <- seed`, NONE (R86). -/
def execCrcSeed (seed : Crc) (s : State) : Host.Outcome State Fault Refusal :=
  .next (emit .none { s with crcAcc := some seed })

/-- CRC_ACC (R87), whose first line is "if crc_acc = ⊥ then raise Fault(CRC_UNSEEDED)": the fault is the rule's own
effect in that state. Otherwise `crc_acc <- crc_step(crc_acc, din)`, NONE. -/
def execCrcAcc (din : Byte) (s : State) : Host.Outcome State Fault Refusal :=
  match s.crcAcc with
  | none => .fault .crcUnseeded
  | some crc => .next (emit .none { s with crcAcc := some (crcStep Config.hw.crcTmpMask crc din) })

end Sys2Proof.Machine
end

