-- ==== Sys2Proof/Machine/Flags.lean ====
section
/-! DEFINITION. The block's only flags are `ver2` and `sgn` (10_state.md R34). -/

namespace Sys2Proof.Machine

/-- The flags and the header counter at a sync byte (41_decoder.md R96, R97): `ver2` says which one, `sgn` is
cleared, `hidx` is 0 and the FD enters Header. -/
def startFrame (ver2 : Bool) (s : State) : State :=
  { s with ver2 := ver2, sgn := false, hidx := 0#4, st := .header }

/-- `sgn` after header byte `i` (41_decoder.md R101): byte 1 of a version-2 header sets it to `SIGNED_BIT` of the
byte (30_encoding.md R64); nothing else writes it. -/
def sgnAfter (c : Config) (ver2 : Bool) (i : Nat) (din : Byte) (sgn : Bool) : Bool :=
  if ver2 = true ∧ i = 1 then din.getLsbD c.signedBit else sgn

/-- Rule R101 on the state, for header byte `i`. -/
def markSigned (c : Config) (i : Nat) (din : Byte) (s : State) : State :=
  { s with sgn := sgnAfter c s.ver2 i din s.sgn }

end Sys2Proof.Machine
end

