-- ==== Sys2Proof/Machine/FrameDecoder.lean ====
section
/-! DEFINITION. The frame decoder's DEC_BYTE sub-operations and FINALIZE (41_decoder.md R95 to R109). Each
transition takes the configuration as an argument; the meanings are the transitions at `Config.hw`. A row's match
on `st` is the decoder's (30_encoding.md R78), and a meaning does not test it again (log 7). -/

namespace Sys2Proof.Machine

/-- What FINALIZE decides for the captured frame (R107): a cause, tested in the rule's order, or the Message.
`none` where a byte that the decision needs holds no value. -/
def finalVerdict (c : Config) (s : State) : Option (Except RejCause Message) :=
  match msgidOf s with
  | none => none
  | some m =>
    match extraOf c m with
    | none => some (.error .noExtra)
    | some x =>
      match frameCrcOf c s x with
      | none => none
      | some crc => if crc ≠ s.crcRx then some (.error .crcMismatch) else (messageOf s m).map .ok

/-- The end of the frame with FINALIZE's decision: a rejection, or FRAME_READY with the Message (R107, R108). -/
def endWith (s : State) : Except RejCause Message → State
  | .error cause => takeRejection cause s
  | .ok m => endFrame (.frameReady m) s

/-- FINALIZE (R107). -/
def finalize (c : Config) (s : State) : Host.Outcome State Fault Refusal :=
  orUnwritten ((finalVerdict c s).map (endWith s))

/-- The end of the header (R102): Payload, or ChecksumLow when the declared length is 0. -/
def endHeader (s : State) : Host.Outcome State Fault Refusal :=
  match declaredLen s with
  | none => .fault .unwrittenByte
  | some l =>
    if 0 < l.toNat then .next (emit .needMore { s with pidx := 0#8, st := .payload })
    else .next (emit .needMore { s with st := .checksumLow })

/-- The rest of a header byte that passed the length check (R102): the last one ends the header, another one
is counted. -/
def advanceHeader (c : Config) (i : Nat) (s : State) : Host.Outcome State Fault Refusal :=
  if i + 1 = hlen c s.ver2 then endHeader s
  else .next (emit .needMore { s with hidx := s.hidx + 1 })

/-- A stored header byte: the length check (R100), the signed flag (R101), the end of the header (R102). -/
def checkHeaderByte (c : Config) (i : Nat) (din : Byte) (s : State) : Host.Outcome State Fault Refusal :=
  if i = 0 ∧ c.maxPayload < din.toNat then .next (takeRejection .oversize s)
  else advanceHeader c i (markSigned c i din s)

/-- HEADER_BYTE (R99): store the byte first, then the checks. -/
def headerByte (c : Config) (din : Byte) (s : State) : Host.Outcome State Fault Refusal :=
  match Memory.store (hdrSize c) s.hdr s.hidx.toNat din with
  | none => .fault .noSuchByte
  | some hdr => checkHeaderByte c s.hidx.toNat din { s with hdr := hdr }

/-- A stored payload byte (R103): the last one ends the payload, another one is counted. -/
def advancePayload (s : State) : Host.Outcome State Fault Refusal :=
  match declaredLen s with
  | none => .fault .unwrittenByte
  | some l =>
    if s.pidx.toNat + 1 = l.toNat then .next (emit .needMore { s with st := .checksumLow })
    else .next (emit .needMore { s with pidx := s.pidx + 1 })

/-- PAYLOAD_BYTE (R103). -/
def payloadByte (c : Config) (din : Byte) (s : State) : Host.Outcome State Fault Refusal :=
  match Memory.store c.maxPayload s.pay s.pidx.toNat din with
  | none => .fault .noSuchByte
  | some pay => advancePayload { s with pay := pay }

/-- After the second checksum byte (R105): Signature for a signed version-2 frame, else FINALIZE. -/
def afterChecksum (c : Config) (s : State) : Host.Outcome State Fault Refusal :=
  if s.ver2 = true ∧ s.sgn = true then .next (emit .needMore { s with sidx := 0#4, st := .signature })
  else finalize c s

/-- SIG_BYTE (R106): the byte is discarded; the last one runs FINALIZE, another one is counted. -/
def signatureByte (c : Config) (s : State) : Host.Outcome State Fault Refusal :=
  if s.sidx.toNat + 1 = c.sigLen then finalize c s
  else .next (emit .needMore { s with sidx := s.sidx + 1 })

/-- SYNC_V2 (R96). -/
def execDecSyncV2 (s : State) : Host.Outcome State Fault Refusal :=
  .next (emit .needMore (startFrame true s))

/-- SYNC_V1 (R97). -/
def execDecSyncV1 (s : State) : Host.Outcome State Fault Refusal :=
  .next (emit .needMore (startFrame false s))

/-- DISCARD (R98): no state is written. -/
def execDecDiscard (_din : Byte) (s : State) : Host.Outcome State Fault Refusal :=
  .next (emit .needMore s)

/-- HEADER_BYTE (R99 to R102). -/
def execDecHeaderByte (din : Byte) (s : State) : Host.Outcome State Fault Refusal :=
  headerByte Config.hw din s

/-- PAYLOAD_BYTE (R103). -/
def execDecPayloadByte (din : Byte) (s : State) : Host.Outcome State Fault Refusal :=
  payloadByte Config.hw din s

/-- CKSUM_LO (R104). -/
def execDecCksumLo (din : Byte) (s : State) : Host.Outcome State Fault Refusal :=
  .next (emit .needMore { s with crcRx := withLowByte s.crcRx din, st := .checksumHigh })

/-- CKSUM_HI (R105). -/
def execDecCksumHi (din : Byte) (s : State) : Host.Outcome State Fault Refusal :=
  afterChecksum Config.hw { s with crcRx := withHighByte s.crcRx din }

/-- SIG_BYTE (R106). -/
def execDecSigByte (_din : Byte) (s : State) : Host.Outcome State Fault Refusal :=
  signatureByte Config.hw s

end Sys2Proof.Machine
end

