-- ==== Sys2Proof/Machine/Dispatch.lean ====
section
/-! DEFINITION. One arm for each instruction. -/

namespace Sys2Proof.Machine

def exec (i : Instr) (s : State) : Host.Outcome State Fault Refusal :=
  match i with
  | .nop => Sys2Proof.Machine.execNop s
  | .decClear => Sys2Proof.Machine.execDecClear s
  | .crcSeed seed => Sys2Proof.Machine.execCrcSeed seed s
  | .crcAcc din => Sys2Proof.Machine.execCrcAcc din s
  | .decSyncV2 => Sys2Proof.Machine.execDecSyncV2 s
  | .decSyncV1 => Sys2Proof.Machine.execDecSyncV1 s
  | .decDiscard din => Sys2Proof.Machine.execDecDiscard din s
  | .decHeaderByte din => Sys2Proof.Machine.execDecHeaderByte din s
  | .decPayloadByte din => Sys2Proof.Machine.execDecPayloadByte din s
  | .decCksumLo din => Sys2Proof.Machine.execDecCksumLo din s
  | .decCksumHi din => Sys2Proof.Machine.execDecCksumHi din s
  | .decSigByte din => Sys2Proof.Machine.execDecSigByte din s
  | .reserved011 => Sys2Proof.Machine.execReserved011 s
  | .reserved110 => Sys2Proof.Machine.execReserved110 s
  | .reserved111 => Sys2Proof.Machine.execReserved111 s

end Sys2Proof.Machine
end

