-- ==== Sys2Proof/Machine/Command.lean ====
section
/-! DEFINITION. One command (00_scope.md R13): the spec's step function takes the state and one command; the
command comes from the input port (30_encoding.md R55). Also the runs of several commands. -/

namespace Sys2Proof.Machine

/-- The word on an input port at which nothing is presented: NOP, which "stands for a step with no byte"
(41_decoder.md R111; log 4). -/
def idleWord : CmdWord := 0#27

/-- The command word at the port in this step (log 4). -/
def presentedWord (s : State) : CmdWord :=
  match s.input with
  | [] => idleWord
  | w :: _ => w

/-- The state once the presented word is taken. -/
def takeInput (s : State) : State := { s with input := s.input.tail }

/-- A step of the block on a command word (R13): decode it in the parser state, then run it. -/
def commandStep (w : CmdWord) (s : State) : Host.Outcome State Fault Refusal :=
  exec (decode Config.hw s.st w) s

/-- The result of a run of commands, the results emitted in order and the state after the last one; the first
fault or refusal ends it (R49: in the order presented, one a step). -/
def runCommands : List CmdWord → State → Host.Outcome (List Result × State) Fault Refusal
  | [], s => .next ([], s)
  | w :: ws, s =>
    match commandStep w s with
    | .fault f => .fault f
    | .refused r => .refused r
    | .next s' =>
      match runCommands ws s' with
      | .fault f => .fault f
      | .refused r => .refused r
      | .next (rs, t) => .next (s'.out :: rs, t)

/-- `BYTE b` as a command word (30_encoding.md R76). -/
def byteWord (b : Byte) : CmdWord := packWord 0b001#3 b 0#16

/-- `CLEAR` as a command word (R76). -/
def clearWord : CmdWord := packWord 0b010#3 0#8 0#16

/-- `SEED v` as a command word (R76). -/
def seedWord (v : Crc) : CmdWord := packWord 0b100#3 0#8 v

/-- `ACC b` as a command word (R76). -/
def accWord (b : Byte) : CmdWord := packWord 0b101#3 b 0#16

/-- Feed bytes to the FD, one DEC_BYTE each (30_encoding.md R77, FEED). -/
def feed (bs : List Byte) (s : State) : Host.Outcome (List Result × State) Fault Refusal :=
  runCommands (bs.map byteWord) s

end Sys2Proof.Machine
end

