-- ==== Sys2Proof/Machine/Step.lean ====
section
/-! DEFINITION. The step of the machine: the presented command is taken from the input and run. -/

namespace Sys2Proof.Machine

/-- One step (00_scope.md R13). -/
def step (s : State) : Host.Outcome State Fault Refusal := commandStep (presentedWord s) (takeInput s)

/-- The state in which the table's word `w` is the next command presented (log 6). -/
def State.withFetchWord (s : State) (_nbits w : Nat) : State :=
  { s with input := BitVec.ofNat 27 w :: s.input }

end Sys2Proof.Machine
end

