-- ==== Sys2Proof/Machine/Assembler.lean ====
section
/-! DEFINITION. The stimulus assembler of 30_encoding.md R76 and its pseudo-instructions (R77): lines of text to
canonical command words. Spelling details that R76 leaves open are in log 11. -/

namespace Sys2Proof.Machine

/-- An item of FEED (R77): a byte, or a double-quoted string given by its characters. -/
inductive FeedItem where
  | imm (v : Nat)
  | text (cs : List Char)
deriving DecidableEq, Repr

/-- One line: a command of R76 or a pseudo-instruction of R77, immediates as written. -/
inductive AsmLine where
  | nop
  | byte (v : Nat)
  | clear
  | seed (v : Nat)
  | acc (v : Nat)
  | feed (items : List FeedItem)
  | crc (s : Nat) (bytes : List Nat)
deriving DecidableEq, Repr

/-- Why a line is an assembly error. -/
inductive AsmError where
  /-- An immediate that does not fit its field (R76: never truncated). -/
  | doesNotFit (v : Nat)
  /-- A string character that is not ASCII (R77). -/
  | notAscii (c : Char)
  /-- A line of no form of R76 or R77. -/
  | badLine
  /-- A string without its closing quote. -/
  | openString
deriving DecidableEq, Repr

/-- `imm8` (R76). -/
def imm8 (v : Nat) : Except AsmError Byte :=
  if v < 2 ^ 8 then .ok (BitVec.ofNat 8 v) else .error (.doesNotFit v)

/-- `imm16` (R76). -/
def imm16 (v : Nat) : Except AsmError Crc :=
  if v < 2 ^ 16 then .ok (BitVec.ofNat 16 v) else .error (.doesNotFit v)

/-- The bytes of a list of immediates. -/
def imm8s : List Nat → Except AsmError (List Byte)
  | [] => .ok []
  | v :: vs =>
    match imm8 v with
    | .error e => .error e
    | .ok b =>
      match imm8s vs with
      | .error e => .error e
      | .ok bs => .ok (b :: bs)

/-- The ASCII codes of a string's characters, in order (R77). -/
def asciiBytes : List Char → Except AsmError (List Byte)
  | [] => .ok []
  | c :: cs =>
    if c.toNat < 128 then
      match asciiBytes cs with
      | .error e => .error e
      | .ok bs => .ok (BitVec.ofNat 8 c.toNat :: bs)
    else .error (.notAscii c)

/-- The bytes that one item of FEED stands for (R77). -/
def FeedItem.bytes : FeedItem → Except AsmError (List Byte)
  | .imm v => imm8s [v]
  | .text cs => asciiBytes cs

/-- The bytes that FEED's items stand for (R77). -/
def feedBytes : List FeedItem → Except AsmError (List Byte)
  | [] => .ok []
  | item :: items =>
    match item.bytes with
    | .error e => .error e
    | .ok bs =>
      match feedBytes items with
      | .error e => .error e
      | .ok rest => .ok (bs ++ rest)

/-- The words of one line (R76, R77), every one canonical (R59). -/
def assembleLine : AsmLine → Except AsmError (List CmdWord)
  | .nop => .ok [packWord 0b000#3 0#8 0#16]
  | .byte v => (imm8 v).map fun b => [byteWord b]
  | .clear => .ok [clearWord]
  | .seed v => (imm16 v).map fun s => [seedWord s]
  | .acc v => (imm8 v).map fun b => [accWord b]
  | .feed items => (feedBytes items).map fun bs => bs.map byteWord
  | .crc s bytes =>
    match imm16 s with
    | .error e => .error e
    | .ok v => (imm8s bytes).map fun bs => seedWord v :: bs.map accWord

/-- The words of a program. -/
def assemble : List AsmLine → Except AsmError (List CmdWord)
  | [] => .ok []
  | l :: ls =>
    match assembleLine l with
    | .error e => .error e
    | .ok ws =>
      match assemble ls with
      | .error e => .error e
      | .ok rest => .ok (ws ++ rest)

/-- A token of a line. -/
inductive Token where
  | word (cs : List Char)
  | str (cs : List Char)
  | comma
  | colon
deriving DecidableEq, Repr

/-- What the scanner is inside of; the characters read so far stand last one first. -/
inductive LexMode where
  | between
  | inWord (rev : List Char)
  | inString (rev : List Char)
deriving DecidableEq, Repr

/-- The token that ends here, if any. -/
def LexMode.finish : LexMode → List Token
  | .between => []
  | .inWord rev => [.word rev.reverse]
  | .inString rev => [.str rev.reverse]

/-- One more character of a word. -/
def LexMode.grow (mode : LexMode) (ch : Char) : LexMode :=
  match mode with
  | .between => .inWord [ch]
  | .inWord rev => .inWord (ch :: rev)
  | .inString rev => .inString (ch :: rev)

/-- The tokens of a line: blanks separate, `;` starts a comment outside a string (R76). -/
def lexLine : LexMode → List Char → Except AsmError (List Token)
  | .inString _, [] => .error .openString
  | .between, [] => .ok []
  | .inWord rev, [] => .ok (LexMode.inWord rev).finish
  | mode, ch :: rest =>
    let inStr : Bool := match mode with
      | .inString _ => true
      | .between => false
      | .inWord _ => false
    if ch.toNat = 34 then
      (lexLine (if inStr then .between else .inString []) rest).map (mode.finish ++ ·)
    else if inStr then lexLine (mode.grow ch) rest
    else if ch = ';' then .ok mode.finish
    else if ch = ' ' ∨ ch.toNat = 9 then (lexLine .between rest).map (mode.finish ++ ·)
    else if ch = ',' then (lexLine .between rest).map (mode.finish ++ .comma :: ·)
    else if ch = ':' then (lexLine .between rest).map (mode.finish ++ .colon :: ·)
    else lexLine (mode.grow ch) rest

/-- The value of a digit in base 10 or 16. -/
def digit (base : Nat) (ch : Char) : Option Nat :=
  let n := ch.toNat
  let v := if 48 ≤ n ∧ n ≤ 57 then some (n - 48)
    else if 65 ≤ n ∧ n ≤ 70 then some (n - 55)
    else if 97 ≤ n ∧ n ≤ 102 then some (n - 87)
    else none
  v.filter (· < base)

/-- The value of a string of digits, after those that gave `acc`. -/
def digits (base : Nat) : Nat → List Char → Option Nat
  | acc, [] => some acc
  | acc, ch :: rest =>
    match digit base ch with
    | none => none
    | some d => digits base (acc * base + d) rest

/-- An immediate: hexadecimal `0xNN` or decimal (R76). -/
def number (cs : List Char) : Option Nat :=
  match cs with
  | [] => none
  | ['0', 'x'] => none
  | '0' :: 'x' :: rest => digits 16 0 rest
  | ch :: rest => digits 10 0 (ch :: rest)

/-- One item of FEED. -/
def feedItem : Token → Option FeedItem
  | .word cs => (number cs).map .imm
  | .str cs => some (.text cs)
  | .comma => none
  | .colon => none

/-- Items separated by commas, one at least. -/
def feedItems : List Token → Option (List FeedItem)
  | [] => none
  | [t] => (feedItem t).map fun i => [i]
  | t :: .comma :: rest =>
    match feedItem t with
    | none => none
    | some i => (feedItems rest).map (i :: ·)
  | _ :: _ :: _ => none

/-- The bytes of `CRC s:` as immediates; a string is no item there (R77). -/
def crcItems : List FeedItem → Option (List Nat)
  | [] => some []
  | .imm v :: rest => (crcItems rest).map (v :: ·)
  | .text _ :: _ => none

/-- The line that a list of tokens writes; `none` inside for an empty line or a comment. -/
def parseTokens (ts : List Token) : Except AsmError (Option AsmLine) :=
  let need (o : Option AsmLine) : Except AsmError (Option AsmLine) :=
    match o with
    | none => .error .badLine
    | some l => .ok (some l)
  match ts with
  | [] => .ok none
  | .word name :: args =>
    if name = ['N', 'O', 'P'] then need (if args = [] then some .nop else none)
    else if name = ['C', 'L', 'E', 'A', 'R'] then need (if args = [] then some .clear else none)
    else if name = ['F', 'E', 'E', 'D'] then need ((feedItems args).map .feed)
    else
      match args with
      | [.word v] =>
        if name = ['B', 'Y', 'T', 'E'] then need ((number v).map .byte)
        else if name = ['S', 'E', 'E', 'D'] then need ((number v).map .seed)
        else if name = ['A', 'C', 'C'] then need ((number v).map .acc)
        else .error .badLine
      | .word v :: .colon :: items =>
        if name = ['C', 'R', 'C'] then
          match number v, (if items = [] then some [] else (feedItems items).bind crcItems) with
          | some s, some bs => .ok (some (.crc s bs))
          | _, _ => .error .badLine
        else .error .badLine
      | _ => .error .badLine
  | _ => .error .badLine

/-- The line that a text line writes (R76, R77). -/
def parseLine (cs : List Char) : Except AsmError (Option AsmLine) :=
  match lexLine .between cs with
  | .error e => .error e
  | .ok ts => parseTokens ts

/-- The words of a text line; an empty line or a comment has none. -/
def textLineWords (cs : List Char) : Except AsmError (List CmdWord) :=
  match parseLine cs with
  | .error e => .error e
  | .ok none => .ok []
  | .ok (some l) => assembleLine l

/-- A program's text, a list of lines, to its command words. -/
def assembleText : List (List Char) → Except AsmError (List CmdWord)
  | [] => .ok []
  | cs :: rest =>
    match textLineWords cs with
    | .error e => .error e
    | .ok ws =>
      match assembleText rest with
      | .error e => .error e
      | .ok more => .ok (ws ++ more)

end Sys2Proof.Machine
end

