-- ==== Sys2Proof/Machine/Frame.lean ====
section
/-! DEFINITION. The frame formats that the FD accepts (30_encoding.md R60 to R62, R69, R75), written as the wire
bytes of a frame. They describe the FD's input; the software encode path stays out of scope (00_scope.md R5 (a)). -/

namespace Sys2Proof.Machine

/-- The three formats of R60. -/
inductive FrameFormat where
  | v1
  | v2
  | v2s
deriving DecidableEq, Repr

/-- A frame's fields (R61, R62). A version-1 frame has no incompat and compat bytes, and only a V2S frame has a
signature; those fields are then without effect on the bytes. -/
structure Frame where
  format : FrameFormat
  seq : Byte
  sysid : Byte
  compid : Byte
  msgid : MsgId
  /-- Bits 7:1 of the incompat byte; bit 0 is the format's. -/
  incompatHigh : BitVec 7
  compat : Byte
  payload : List Byte
  /-- The checksum that the frame carries. -/
  checksum : Crc
  signature : List Byte
deriving DecidableEq, Repr

/-- The frame is a version-2 frame. -/
def FrameFormat.isV2 : FrameFormat → Bool
  | .v1 => false
  | .v2 => true
  | .v2s => true

/-- The frame is a signed one. -/
def FrameFormat.isSigned : FrameFormat → Bool
  | .v1 => false
  | .v2 => false
  | .v2s => true

/-- The fields fit the format: the length fits its byte and `MAX_PAYLOAD`, a version-1 message id has one byte
(R65), a signature has `SIG_LEN` bytes (R60). -/
def Frame.wellFormed (c : Config) (f : Frame) : Bool :=
  decide (f.payload.length < 256) && decide (f.payload.length ≤ c.maxPayload) &&
    match f.format with
    | .v1 => decide (f.msgid.toNat < 256)
    | .v2 => true
    | .v2s => decide (f.signature.length = c.sigLen)

/-- The declared length byte. -/
def Frame.len (f : Frame) : Byte := BitVec.ofNat 8 f.payload.length

/-- The sync byte (R60). -/
def Frame.sync (c : Config) (f : Frame) : Byte := if f.format.isV2 then c.syncV2 else c.syncV1

/-- The header bytes, sync excluded (R61, R62). -/
def Frame.header (f : Frame) : List Byte :=
  match f.format with
  | .v1 => [f.len, f.seq, f.sysid, f.compid, f.msgid.extractLsb' 0 8]
  | .v2 =>
    [f.len, f.incompatHigh ++ 0#1, f.compat, f.seq, f.sysid, f.compid,
     f.msgid.extractLsb' 0 8, f.msgid.extractLsb' 8 8, f.msgid.extractLsb' 16 8]
  | .v2s =>
    [f.len, f.incompatHigh ++ 1#1, f.compat, f.seq, f.sysid, f.compid,
     f.msgid.extractLsb' 0 8, f.msgid.extractLsb' 8 8, f.msgid.extractLsb' 16 8]

/-- The two checksum bytes on the wire, low byte first (20_memory.md R43). -/
def checksumBytes (crc : Crc) : List Byte := [crc.extractLsb' 0 8, crc.extractLsb' 8 8]

/-- The frame's bytes on the wire (R61, R62). -/
def Frame.bytes (c : Config) (f : Frame) : List Byte :=
  f.sync c :: f.header ++ f.payload ++ checksumBytes f.checksum ++
    (if f.format.isSigned then f.signature else [])

/-- The total number of bytes (R60). -/
def Frame.total (f : Frame) : Nat :=
  match f.format with
  | .v1 => f.payload.length + 8
  | .v2 => f.payload.length + 12
  | .v2s => f.payload.length + 25

/-- The checksum of 40_crc.md R84 under an extra byte. -/
def Frame.crcWith (c : Config) (f : Frame) (extra : Byte) : Crc := frameCrc c f.header f.payload extra

/-- The frame is valid: its message id has an extra byte and it carries its own checksum. -/
def Frame.valid (c : Config) (f : Frame) : Bool :=
  match extraOf c f.msgid with
  | none => false
  | some x => f.checksum == f.crcWith c x

/-- The Message of the frame (R75). -/
def Frame.message (f : Frame) : Message where
  msgid := f.msgid
  sysid := f.sysid
  compid := f.compid
  len := f.len
  payload := f.payload
  v2 := f.format.isV2
  signed := f.format.isSigned

/-- The result that the rules of 41_decoder.md R107 give the frame. -/
def Frame.result (c : Config) (f : Frame) : Result :=
  match extraOf c f.msgid with
  | none => .frameRejected .noExtra
  | some x => if f.crcWith c x ≠ f.checksum then .frameRejected .crcMismatch else .frameReady f.message

/-- The 9 payload bytes of the HEARTBEAT stimulus (R79). -/
def heartbeatPayload : List Byte :=
  [0x00#8, 0x00#8, 0x00#8, 0x00#8, 0x12#8, 0x08#8, 0x00#8, 0x00#8, 0x03#8]

/-- A HEARTBEAT frame before its checksum is filled in (R79). -/
def heartbeatBody (v2 : Bool) (seq sysid compid : Byte) : Frame where
  format := if v2 then .v2 else .v1
  seq := seq
  sysid := sysid
  compid := compid
  msgid := 0#24
  incompatHigh := 0#7
  compat := 0#8
  payload := heartbeatPayload
  checksum := 0#16
  signature := []

/-- The HEARTBEAT stimulus (R79): the checksum is computed with extra = 50. -/
def heartbeatFrame (c : Config) (v2 : Bool) (seq sysid compid : Byte) : Frame :=
  { heartbeatBody v2 seq sysid compid with
    checksum := (heartbeatBody v2 seq sysid compid).crcWith c 50#8 }

/-- The private checksum register of an incremental realisation (41_decoder.md R115), after the byte `b` is taken
in the parser state `st`: seeded at a sync byte, and each header and payload byte folded as it arrives. -/
def incrementalCrc (c : Config) (st : ParserState) (b : Byte) (r : Crc) : Crc :=
  match st with
  | .awaitSync => if b = c.syncV2 ∨ b = c.syncV1 then c.crcSeed else r
  | .header => crcStep c.crcTmpMask r b
  | .payload => crcStep c.crcTmpMask r b
  | .checksumLow => r
  | .checksumHigh => r
  | .signature => r

end Sys2Proof.Machine
end

