-- ==== Sys2Proof/Safety.lean ====
section
/-! DEFINITION. What a run may rely on: the invariant of 10_state.md R39 with the counter bounds of R29, safe
runs, and the vocabulary in which statements about runs are written. -/

namespace Sys2Proof.Machine

/-- The first `n` bytes of a buffer hold values. -/
abbrev Written (m : Memory) (n : Nat) : Prop := ∀ i, i < n → (Memory.read m i).isSome = true

/-- Every listed index lies in a buffer of `size` bytes (20_memory.md R40). -/
abbrev Within (m : Memory) (size : Nat) : Prop := ∀ cell ∈ m, cell.1 < size

/-- The frame in progress has its whole header and payload (R39 (e)). -/
abbrev Captured (s : State) : Prop :=
  Written s.hdr (hlen Config.hw s.ver2) ∧ ∃ l, declaredLen s = some l ∧ Written s.pay l.toNat

/-- `sgn = ver2 AND hdr[1][0]` (30_encoding.md R64). -/
abbrev SignedFlagAgrees (s : State) : Prop :=
  ∀ b, hdrByte s 1 = some b → s.sgn = (s.ver2 && b.getLsbD 0)

/-- The invariant of every reachable state: R39 (a) to (e), the counter bounds of R29, the buffers' form and
sizes (20_memory.md R40), and the agreement of `sgn` with the header (30_encoding.md R64). -/
structure FdInv (s : State) : Prop where
  hdr_wf : Memory.wf s.hdr = true
  pay_wf : Memory.wf s.pay = true
  hdr_within : Within s.hdr 9
  pay_within : Within s.pay 255
  hidx_bound : s.hidx.toNat ≤ 8
  pidx_bound : s.pidx.toNat ≤ 254
  sidx_bound : s.sidx.toNat ≤ 12
  /-- R39 (a). -/
  header_index : s.st = .header → s.hidx.toNat < hlen Config.hw s.ver2
  header_written : s.st = .header → Written s.hdr s.hidx.toNat
  header_unsigned : s.st = .header → s.hidx.toNat ≤ 1 → s.sgn = false
  header_signed : s.st = .header → 1 < s.hidx.toNat → SignedFlagAgrees s
  /-- R39 (b). -/
  payload_index : s.st = .payload →
    ∃ l, declaredLen s = some l ∧ 1 ≤ l.toNat ∧ s.pidx.toNat < l.toNat
  payload_written : s.st = .payload →
    Written s.hdr (hlen Config.hw s.ver2) ∧ Written s.pay s.pidx.toNat
  /-- R39 (c). -/
  signature_frame : s.st = .signature → s.ver2 = true ∧ s.sgn = true ∧ s.sidx.toNat < 13
  /-- R39 (d). -/
  v1_unsigned : s.ver2 = false → s.st ≠ .awaitSync → s.sgn = false
  /-- R39 (e). -/
  captured : s.st = .checksumLow ∨ s.st = .checksumHigh ∨ s.st = .signature → Captured s
  flag_agrees : s.st ≠ .awaitSync → s.st ≠ .header → SignedFlagAgrees s

/-- A run is safe when no step of it ends in a fault or a refusal. -/
abbrev SafeRun (ws : List CmdWord) (s : State) : Prop := ∃ rs t, runCommands ws s = .next (rs, t)

/-- The FD's elements are the same (10_state.md R20). -/
abbrev SameFd (s t : State) : Prop :=
  s.st = t.st ∧ s.ver2 = t.ver2 ∧ s.hidx = t.hidx ∧ s.hdr = t.hdr ∧ s.pidx = t.pidx ∧ s.pay = t.pay ∧
    s.crcRx = t.crcRx ∧ s.sgn = t.sgn ∧ s.sidx = t.sidx

/-- Every byte of a buffer but the one at index `a` reads as before. -/
abbrev SameBytesBut (a : Nat) (m m' : Memory) : Prop := ∀ i, i ≠ a → Memory.read m' i = Memory.read m i

/-- Every byte of a buffer reads as before. -/
abbrev SameBytes (m m' : Memory) : Prop := ∀ i, Memory.read m' i = Memory.read m i

/-- Bit 2 of `cmd` selects the unit (30_encoding.md R56): 1 is the CU. -/
def isCuWord (w : CmdWord) : Bool := (cmdField w).getLsbD 2

/-- The commands of a run that the CU does not take. -/
def fdWords (ws : List CmdWord) : List CmdWord := ws.filter fun w => !isCuWord w

/-- The commands of a run that the CU takes. -/
def cuWords (ws : List CmdWord) : List CmdWord := ws.filter isCuWord

/-- The results of a run at the commands that the CU does not take. -/
def fdResults : List CmdWord → List Result → List Result
  | w :: ws, r :: rs => if isCuWord w then fdResults ws rs else r :: fdResults ws rs
  | [], _ => []
  | _ :: _, [] => []

/-- What a consumer sees of a run: the results, or the fault or refusal that ended it. -/
def seenResults (o : Host.Outcome (List Result × State) Fault Refusal) :
    Host.Outcome (List Result) Fault Refusal :=
  match o with
  | .next (rs, _) => .next rs
  | .fault f => .fault f
  | .refused r => .refused r

/-- A run of DEC_BYTE commands with the private register of an incremental realisation beside it
(41_decoder.md R115). -/
def incrementalRun (c : Config) : List Byte → State → Crc → Host.Outcome (State × Crc) Fault Refusal
  | [], s, r => .next (s, r)
  | b :: bs, s, r =>
    match commandStep (byteWord b) s with
    | .next t => incrementalRun c bs t (incrementalCrc c s.st b r)
    | .fault f => .fault f
    | .refused q => .refused q

/-- The result ends a frame. -/
def Result.endsFrame : Result → Bool
  | .none => false
  | .needMore => false
  | .frameRejected _ => true
  | .frameReady _ => true

end Sys2Proof.Machine
end

