-- ==== Sys2Proof/Certificates/Slice0/Obligations.lean ====
section
/-! DEFINITION. The statements for the provers. Each cites the rule of spec/ that it formalises. -/

open Sys2Proof Sys2Proof.Machine

/-! ### Encoding -/

/-- 30_encoding.md R59: the example words, read from the rule's own numbers, in the state of reset. -/
def Obligations.ExampleWordsDecode : Prop :=
  decode Config.hw .awaitSync 0x0007E9#27 = .decSyncV2 ∧
  decode Config.hw .awaitSync 0x7FFF804#27 = .crcSeed 0xFFFF#16 ∧
  decode Config.hw .awaitSync 0x00018D#27 = .crcAcc 0x31#8 ∧
  decode Config.hw .awaitSync 0x000002#27 = .decClear ∧
  decode Config.hw .awaitSync 0x000000#27 = .nop ∧
  decode Config.hw .awaitSync 0b000000000000000011111110001#27 = .decSyncV1 ∧
  decode Config.hw .payload 0b000000000000000001010101001#27 = .decPayloadByte 0x55#8

/-- 30_encoding.md R56, R59, R78: the encoder's word decodes to the instruction, in every parser state that selects
the instruction's row, for every operand. -/
def Obligations.DecodeOfEncode : Prop :=
  ∀ (st : ParserState) (i : Instr),
    i.wellFormed Config.hw = true → i.selectedIn st = true →
      decode Config.hw st (encode Config.hw i) = i

/-- spec/opcode_table.json, 30_encoding.md R78: the decoder's answer is a well-formed instruction of a row that the
parser state selects and whose mask, pattern and exclusions the word meets; and it is the only such row. -/
def Obligations.DecoderAnswersTheTablesRow : Prop :=
  ∀ (st : ParserState) (w : CmdWord),
    let i := decode Config.hw st w
    i.wellFormed Config.hw = true ∧ i.selectedIn st = true ∧ i.row.covers w = true ∧
      ∀ j : Instr, j.wellFormed Config.hw = true → j.selectedIn st = true → j.row.covers w = true →
        j.row = i.row

/-- 30_encoding.md R59: the word's layout, and a command ignores every field that it does not name, so that a word
decodes as its canonical word, which is the encoder's. -/
def Obligations.UnnamedFieldsAreIgnored : Prop :=
  (∀ (cmd : BitVec 3) (din : Byte) (seed : Crc),
    (packWord cmd din seed).toNat = cmd.toNat + 8 * din.toNat + 2048 * seed.toNat) ∧
  (∀ (st : ParserState) (din din' : Byte) (seed seed' : Crc),
    decode Config.hw st (packWord 0b000#3 din seed) = decode Config.hw st (packWord 0b000#3 din' seed') ∧
    decode Config.hw st (packWord 0b010#3 din seed) = decode Config.hw st (packWord 0b010#3 din' seed') ∧
    decode Config.hw st (packWord 0b001#3 din seed) = decode Config.hw st (packWord 0b001#3 din seed') ∧
    decode Config.hw st (packWord 0b101#3 din seed) = decode Config.hw st (packWord 0b101#3 din seed') ∧
    decode Config.hw st (packWord 0b100#3 din seed) = decode Config.hw st (packWord 0b100#3 din' seed)) ∧
  (∀ (st : ParserState) (w : CmdWord),
    decode Config.hw st (encode Config.hw (decode Config.hw st w)) = decode Config.hw st w)

/-- 10_state.md R22 and 30_encoding.md R57: the codes of `st`, `res` and `rej_cause`, and when `msg_*` is valid. -/
def Obligations.StateAndResultCodes : Prop :=
  (stCode .awaitSync = 0 ∧ stCode .header = 1 ∧ stCode .payload = 2 ∧ stCode .checksumLow = 3 ∧
    stCode .checksumHigh = 4 ∧ stCode .signature = 5) ∧
  (∀ r : Result,
    (r.res = 0b00 ↔ r = .none) ∧ (r.res = 0b01 ↔ r = .needMore) ∧
    (r.res = 0b10 ↔ ∃ k, r = .frameRejected k) ∧ (r.res = 0b11 ↔ ∃ m, r = .frameReady m) ∧
    (r.rejCause ≠ 0b00 ↔ r.res = 0b10) ∧ (r.msg.isSome = true ↔ r.res = 0b11)) ∧
  (Result.frameRejected .oversize).rejCause = 0b01 ∧ (Result.frameRejected .noExtra).rejCause = 0b10 ∧
  (Result.frameRejected .crcMismatch).rejCause = 0b11

/-! ### The step -/

/-- 00_scope.md R13, 30_encoding.md R55: a step takes the oldest presented word and runs the decoded instruction.
With nothing presented it is NOP: the model's choice, log 4. -/
def Obligations.StepRunsTheDecodedInstruction : Prop :=
  (∀ (s : State) (w : CmdWord) (rest : List CmdWord), s.input = w :: rest →
    step s = exec (decode Config.hw s.st w) { s with input := rest }) ∧
  (∀ s : State, s.input = [] → step s = exec .nop s)

/-- 70_reset_and_hazards.md R150: what reset leaves. The values of the other FD registers are the model's own
choice (log 1) and are not stated here. -/
def Obligations.ResetLeavesAwaitSyncAndNoValues : Prop :=
  State.reset.st = .awaitSync ∧ stCode State.reset.st = 0 ∧ State.reset.crcAcc = none ∧
  (∀ i, Memory.read State.reset.hdr i = none) ∧ (∀ i, Memory.read State.reset.pay i = none) ∧
  State.reset.out.res = 0b00 ∧ State.reset.out.rejCause = 0b00 ∧ State.reset.out.msg = none ∧
  State.reset.crcOut = none

/-- 60_exceptions.md R140, 30_encoding.md R58: the one refusal is RESERVED_CMD, for the codes 011, 110 and 111 and
no other, in every state. -/
def Obligations.OnlyReservedCodesAreRefused : Prop :=
  (∀ (s : State) (w : CmdWord) (r : Refusal),
    commandStep w s = .refused r ↔
      r = .reservedCmd ∧ (cmdField w = 0b011 ∨ cmdField w = 0b110 ∨ cmdField w = 0b111)) ∧
  (∀ s : State, exec .reserved011 s = .refused .reservedCmd ∧ exec .reserved110 s = .refused .reservedCmd ∧
    exec .reserved111 s = .refused .reservedCmd)

/-- 60_exceptions.md R139, 41_decoder.md R95: in a state that meets the invariant the one fault is CRC_UNSEEDED,
raised by CRC_ACC while `crc_acc` is `⊥` and by nothing else; a reader of `crc_out` meets it there too. -/
def Obligations.OnlyUnseededAccumulationFaults : Prop :=
  (∀ (s : State) (w : CmdWord) (f : Fault), FdInv s →
    (commandStep w s = .fault f ↔ f = .crcUnseeded ∧ cmdField w = 0b101 ∧ s.crcAcc = none)) ∧
  (∀ s : State, readCrcOut s = .error .crcUnseeded ↔ s.crcAcc = none)

/-- 10_state.md R36, 70_reset_and_hazards.md R157: no step reads a past output. -/
def Obligations.NoStepReadsPastOutputs : Prop :=
  ∀ (w : CmdWord) (s : State) (o : Result), commandStep w { s with out := o } = commandStep w s

/-- 30_encoding.md R57: NONE is emitted by every command but DEC_BYTE, and DEC_BYTE emits another result. -/
def Obligations.OnlyDecByteEmitsAResult : Prop :=
  ∀ (w : CmdWord) (s t : State), commandStep w s = .next t → (t.out = .none ↔ cmdField w ≠ 0b001)

/-! ### NOP, DEC_CLEAR and the checksum unit -/

/-- 41_decoder.md R111, as an instruction and as a command with any ignored fields. -/
def Obligations.NopChangesNothing : Prop :=
  ∀ (s : State) (din : Byte) (seed : Crc),
    exec .nop s = .next { s with out := .none } ∧
    commandStep (packWord 0b000#3 din seed) s = .next { s with out := .none }

/-- 41_decoder.md R110, as an instruction and as a command with any ignored fields. -/
def Obligations.DecClearReturnsToAwaitSync : Prop :=
  ∀ (s : State) (din : Byte) (seed : Crc),
    exec .decClear s = .next { s with st := .awaitSync, out := .none } ∧
    commandStep (packWord 0b010#3 din seed) s = .next { s with st := .awaitSync, out := .none }

/-- 40_crc.md R86, as an instruction and as a command with any `din`. -/
def Obligations.CrcSeedLoadsTheAccumulator : Prop :=
  ∀ (s : State) (din : Byte) (seed : Crc),
    exec (.crcSeed seed) s = .next { s with crcAcc := some seed, out := .none } ∧
    commandStep (packWord 0b100#3 din seed) s = .next { s with crcAcc := some seed, out := .none }

/-- 40_crc.md R87, as an instruction and as a command with any `seed`. -/
def Obligations.CrcAccFoldsOneByteOrFaults : Prop :=
  ∀ (s : State) (din : Byte) (seed : Crc),
    commandStep (packWord 0b101#3 din seed) s = exec (.crcAcc din) s ∧
    (∀ crc, s.crcAcc = some crc →
      exec (.crcAcc din) s = .next { s with crcAcc := some (crcStep 0xFF#16 crc din), out := .none }) ∧
    (s.crcAcc = none → exec (.crcAcc din) s = .fault .crcUnseeded)

/-- 40_crc.md R80: `crc_step` as the rule computes it, on numbers, shifts at unbounded width (00_scope.md R10). -/
def Obligations.CrcStepComputesTheShiftXorFormula : Prop :=
  ∀ (crc : Crc) (b : Byte),
    let t1 : Nat := b.toNat ^^^ (crc.toNat &&& 0xFF)
    let t : Nat := (t1 ^^^ (t1 <<< 4)) &&& 0xFF
    (crcStep Config.hw.crcTmpMask crc b).toNat =
      ((crc.toNat >>> 8) ^^^ (t <<< 8) ^^^ (t <<< 3) ^^^ (t >>> 4)) &&& 0xFFFF

/-- 40_crc.md R81: a byte equal to the checksum's low byte shifts it right by 8. -/
def Obligations.EqualByteShiftsTheChecksum : Prop :=
  (∀ (crc : Crc) (b : Byte), b.toNat = crc.toNat % 256 →
    (crcStep Config.hw.crcTmpMask crc b).toNat = crc.toNat / 256) ∧
  crcStep Config.hw.crcTmpMask 0x0000#16 0x00#8 = 0x0000#16 ∧
  crcStep Config.hw.crcTmpMask 0xFFFF#16 0xFF#8 = 0x00FF#16

/-- 40_crc.md R82, R83: `accumulate` folds from the first byte to the last, so a checksum computed in pieces is the
checksum of the whole. -/
def Obligations.AccumulateComposesOverConcatenation : Prop :=
  (∀ (mask seed : Crc), accumulate mask [] seed = seed) ∧
  (∀ (mask seed : Crc) (b : Byte) (rest : List Byte),
    accumulate mask (b :: rest) seed = accumulate mask rest (crcStep mask seed b)) ∧
  (∀ (mask seed : Crc) (xs ys : List Byte),
    accumulate mask (xs ++ ys) seed = accumulate mask ys (accumulate mask xs seed))

/-- 40_crc.md R85, R89: the table form computes `crc_step` for every checksum and byte, and the check value. -/
def Obligations.TableFormEqualsCrcStep : Prop :=
  (∀ (crc : Crc) (b : Byte), crcStepByTable crc b = crcStep Config.hw.crcTmpMask crc b) ∧
  accumulate Config.hw.crcTmpMask
    [0x31#8, 0x32#8, 0x33#8, 0x34#8, 0x35#8, 0x36#8, 0x37#8, 0x38#8, 0x39#8] 0xFFFF#16 = 0x6F91#16

/-- 40_crc.md R90: the literal 16-bit reading and the rule agree exactly on the inputs that R90 names. -/
def Obligations.LiteralReadingAgreesExactlyBelow16 : Prop :=
  Config.hw.crcTmpMask = 0x00FF#16 ∧
  (∀ (crc : Crc) (b : Byte),
    crcStep 0xFFFF#16 crc b = crcStep 0x00FF#16 crc b ↔ b.toNat ^^^ (crc.toNat % 256) < 0x10) ∧
  accumulate 0xFFFF#16
    [0x31#8, 0x32#8, 0x33#8, 0x34#8, 0x35#8, 0x36#8, 0x37#8, 0x38#8, 0x39#8] 0xFFFF#16 = 0xEA24#16 ∧
  accumulate 0x00FF#16
    [0x31#8, 0x32#8, 0x33#8, 0x34#8, 0x35#8, 0x36#8, 0x37#8, 0x38#8, 0x39#8] 0xFFFF#16 = 0x6F91#16 ∧
  crcStep 0x00FF#16 0xFFFF#16 0x00#8 = 0x0F87#16 ∧ crcStep 0xFFFF#16 0xFFFF#16 0x00#8 = 0x7777#16

/-- 40_crc.md R91: changing one payload byte changes the frame's checksum. -/
def Obligations.OnePayloadByteChangeChangesTheChecksum : Prop :=
  ∀ (header payload : List Byte) (extra b : Byte) (k : Nat) (hk : k < payload.length),
    payload[k] ≠ b → frameCrc Config.hw header (payload.set k b) extra ≠ frameCrc Config.hw header payload extra

/-- 40_crc.md R88, 30_encoding.md R77: SEED and ACC over a byte list leave `crc_out` at `accumulate`, every result is
NONE and the FD is untouched; and `crc_out` is `crc_acc` after every step. -/
def Obligations.SeedThenAccumulateRun : Prop :=
  (∀ (s : State) (seed : Crc) (bs : List Byte),
    ∃ t, runCommands (seedWord seed :: bs.map accWord) s =
        .next (List.replicate (bs.length + 1) Result.none, t) ∧
      t.crcOut = some (accumulate 0xFF#16 bs seed) ∧ SameFd s t) ∧
  (∀ (w : CmdWord) (s t : State), commandStep w s = .next t → t.crcOut = t.crcAcc)

/-- 70_reset_and_hazards.md R156: from reset until the first CRC_SEED the accumulator is `⊥` and CRC_ACC faults; after
one, no command makes it `⊥` again. -/
def Obligations.SeedingIsForGood : Prop :=
  State.reset.crcAcc = none ∧
  (∀ (s : State) (din : Byte), s.crcAcc = none → exec (.crcAcc din) s = .fault .crcUnseeded) ∧
  (∀ (w : CmdWord) (s t : State), commandStep w s = .next t → s.crcAcc = none → cmdField w ≠ 0b100 →
    t.crcAcc = none) ∧
  (∀ (w : CmdWord) (s t : State), commandStep w s = .next t →
    s.crcAcc ≠ none ∨ cmdField w = 0b100 → t.crcAcc ≠ none)

/-- 20_memory.md R50: a CU command reads and writes only `crc_acc`, an FD command neither reads nor writes it, and
interleaving the two changes neither the FD's results nor the accumulator. -/
def Obligations.ChecksumUnitAndDecoderAreIndependent : Prop :=
  (∀ (w : CmdWord) (s t : State), commandStep w s = .next t → isCuWord w = true → SameFd s t) ∧
  (∀ (w : CmdWord) (s s' t : State), commandStep w s = .next t → isCuWord w = true → s.crcAcc = s'.crcAcc →
    ∃ t', commandStep w s' = .next t' ∧ t'.crcAcc = t.crcAcc) ∧
  (∀ (w : CmdWord) (s t : State) (a : Option Crc), commandStep w s = .next t → isCuWord w = false →
    t.crcAcc = s.crcAcc ∧ commandStep w { s with crcAcc := a } = .next { t with crcAcc := a }) ∧
  (∀ (ws : List CmdWord) (s t : State) (rs : List Result), runCommands ws s = .next (rs, t) →
    (∃ u, runCommands (fdWords ws) s = .next (fdResults ws rs, u) ∧ SameFd t u ∧ u.crcAcc = s.crcAcc) ∧
    (∃ qs u, runCommands (cuWords ws) s = .next (qs, u) ∧ u.crcAcc = t.crcAcc ∧ SameFd s u))

/-! ### DEC_BYTE, one statement for each sub-operation -/

/-- 41_decoder.md R96: SYNC_V2, as an instruction and as a command with any `seed`. -/
def Obligations.SyncV2StartsAVersion2Frame : Prop :=
  ∀ (s : State) (seed : Crc), s.st = .awaitSync →
    exec .decSyncV2 s =
      .next { s with ver2 := true, sgn := false, hidx := 0#4, st := .header, out := .needMore } ∧
    commandStep (packWord 0b001#3 0xFD#8 seed) s = exec .decSyncV2 s

/-- 41_decoder.md R97: SYNC_V1, as an instruction and as a command with any `seed`. -/
def Obligations.SyncV1StartsAVersion1Frame : Prop :=
  ∀ (s : State) (seed : Crc), s.st = .awaitSync →
    exec .decSyncV1 s =
      .next { s with ver2 := false, sgn := false, hidx := 0#4, st := .header, out := .needMore } ∧
    commandStep (packWord 0b001#3 0xFE#8 seed) s = exec .decSyncV1 s

/-- 41_decoder.md R98: DISCARD writes no state and emits NEED_MORE, for every byte that is no sync byte. -/
def Obligations.DiscardWritesNoState : Prop :=
  ∀ (s : State) (din : Byte) (seed : Crc), s.st = .awaitSync → din ≠ 0xFD#8 → din ≠ 0xFE#8 →
    exec (.decDiscard din) s = .next { s with out := .needMore } ∧
    commandStep (packWord 0b001#3 din seed) s = exec (.decDiscard din) s

/-- 41_decoder.md R99, R101, R102: HEADER_BYTE with this hardware's `MAX_PAYLOAD`. The byte is stored at `hidx`;
byte 1 of a version-2 header sets `sgn`; the byte that ends the header leads to Payload or, at a declared length of
0, to ChecksumLow; another byte is counted. Nothing else changes. -/
def Obligations.HeaderByteIsStoredAndCounted : Prop :=
  ∀ (s : State) (din : Byte) (seed : Crc), FdInv s → s.st = .header →
    commandStep (packWord 0b001#3 din seed) s = exec (.decHeaderByte din) s ∧
    ∃ t, exec (.decHeaderByte din) s = .next t ∧
      Memory.read t.hdr s.hidx.toNat = some din ∧ SameBytesBut s.hidx.toNat s.hdr t.hdr ∧
      t.pay = s.pay ∧ t.ver2 = s.ver2 ∧ t.crcRx = s.crcRx ∧ t.sidx = s.sidx ∧ t.crcAcc = s.crcAcc ∧
      t.input = s.input ∧ t.out = .needMore ∧
      t.sgn = (if s.ver2 = true ∧ s.hidx.toNat = 1 then din.getLsbD 0 else s.sgn) ∧
      (s.hidx.toNat + 1 = (if s.ver2 then 9 else 5) →
        t.hidx = s.hidx ∧
        ∃ l, Memory.read s.hdr 0 = some l ∧
          (0 < l.toNat → t.st = .payload ∧ t.pidx = 0#8) ∧
          (l.toNat = 0 → t.st = .checksumLow ∧ t.pidx = s.pidx)) ∧
      (s.hidx.toNat + 1 ≠ (if s.ver2 then 9 else 5) →
        t.st = .header ∧ t.hidx.toNat = s.hidx.toNat + 1 ∧ t.pidx = s.pidx)

/-- 41_decoder.md R100, 00_scope.md R7: under any configuration, a first header byte above `MAX_PAYLOAD` is rejected at
once with cause OVERSIZE, the byte stored and nothing else changed; with this hardware's parameters no command of
any state gives that cause. -/
def Obligations.OversizeIsRejectedAtOnceAndUnreachableHere : Prop :=
  (∀ (c : Config) (s : State) (din : Byte), s.hidx = 0#4 → 0 < hdrSize c → c.maxPayload < din.toNat →
    ∃ t, headerByte c din s = .next t ∧ t.st = .awaitSync ∧ t.out = .frameRejected .oversize ∧
      t.out.rejCause = 0b01 ∧ Memory.read t.hdr 0 = some din ∧ SameBytesBut 0 s.hdr t.hdr ∧
      t = { s with hdr := t.hdr, st := .awaitSync, out := .frameRejected .oversize }) ∧
  (∀ (w : CmdWord) (s t : State), commandStep w s = .next t → t.out ≠ .frameRejected .oversize)

/-- 41_decoder.md R103: PAYLOAD_BYTE stores the byte at `pidx`; the byte that makes `hdr[0]` of them leads to
ChecksumLow, another one is counted. Nothing else changes. -/
def Obligations.PayloadByteIsStoredAndCounted : Prop :=
  ∀ (s : State) (din : Byte) (seed : Crc), FdInv s → s.st = .payload →
    commandStep (packWord 0b001#3 din seed) s = exec (.decPayloadByte din) s ∧
    ∃ t l, exec (.decPayloadByte din) s = .next t ∧ Memory.read s.hdr 0 = some l ∧
      Memory.read t.pay s.pidx.toNat = some din ∧ SameBytesBut s.pidx.toNat s.pay t.pay ∧
      t.hdr = s.hdr ∧ t.ver2 = s.ver2 ∧ t.sgn = s.sgn ∧ t.hidx = s.hidx ∧ t.crcRx = s.crcRx ∧
      t.sidx = s.sidx ∧ t.crcAcc = s.crcAcc ∧ t.input = s.input ∧ t.out = .needMore ∧
      (s.pidx.toNat + 1 = l.toNat → t.st = .checksumLow ∧ t.pidx = s.pidx) ∧
      (s.pidx.toNat + 1 ≠ l.toNat → t.st = .payload ∧ t.pidx.toNat = s.pidx.toNat + 1)

/-- 41_decoder.md R104: CKSUM_LO writes the low byte of `crc_rx` and nothing else but `st`. -/
def Obligations.ChecksumLowByteIsCaptured : Prop :=
  ∀ (s : State) (din : Byte) (seed : Crc), s.st = .checksumLow →
    commandStep (packWord 0b001#3 din seed) s = exec (.decCksumLo din) s ∧
    ∃ crc, exec (.decCksumLo din) s =
        .next { s with crcRx := crc, st := .checksumHigh, out := .needMore } ∧
      crc.toNat = s.crcRx.toNat / 256 * 256 + din.toNat

/-- 41_decoder.md R105: CKSUM_HI writes the high byte of `crc_rx`; a signed version-2 frame goes on to Signature, and
every other frame is finalized in this step, with one of the three results of R107. -/
def Obligations.ChecksumHighByteEndsAnUnsignedFrame : Prop :=
  ∀ (s : State) (din : Byte) (seed : Crc), FdInv s → s.st = .checksumHigh →
    commandStep (packWord 0b001#3 din seed) s = exec (.decCksumHi din) s ∧
    ∃ crc : Crc, crc.toNat = din.toNat * 256 + s.crcRx.toNat % 256 ∧
      (s.ver2 = true → s.sgn = true →
        exec (.decCksumHi din) s =
          .next { s with crcRx := crc, sidx := 0#4, st := .signature, out := .needMore }) ∧
      (¬(s.ver2 = true ∧ s.sgn = true) →
        exec (.decCksumHi din) s = finalize Config.hw { s with crcRx := crc } ∧
        ∃ r, exec (.decCksumHi din) s = .next { s with crcRx := crc, st := .awaitSync, out := r } ∧
          (r = .frameRejected .noExtra ∨ r = .frameRejected .crcMismatch ∨ ∃ m, r = .frameReady m))

/-- 41_decoder.md R106: SIG_BYTE does not depend on its byte; the 13th runs FINALIZE, another one is counted. -/
def Obligations.SignatureBytesAreCountedAndDiscarded : Prop :=
  ∀ (s : State) (din din' : Byte) (seed : Crc), FdInv s → s.st = .signature →
    commandStep (packWord 0b001#3 din seed) s = exec (.decSigByte din) s ∧
    exec (.decSigByte din) s = exec (.decSigByte din') s ∧
    (s.sidx.toNat + 1 ≠ 13 →
      ∃ i : BitVec 4, i.toNat = s.sidx.toNat + 1 ∧
        exec (.decSigByte din) s = .next { s with sidx := i, out := .needMore }) ∧
    (s.sidx.toNat + 1 = 13 →
      exec (.decSigByte din) s = finalize Config.hw s ∧
      ∃ r, exec (.decSigByte din) s = .next { s with st := .awaitSync, out := r } ∧
        (r = .frameRejected .noExtra ∨ r = .frameRejected .crcMismatch ∨ ∃ m, r = .frameReady m))

/-- 41_decoder.md R107, R108: FINALIZE on a captured frame: NO_EXTRA first, then CRC_MISMATCH, else FRAME_READY with
the Message of 30_encoding.md R75; `st` and the outputs are all that it writes. -/
def Obligations.FinalizeDecidesTheFrame : Prop :=
  ∀ (s : State) (header payload : List Byte) (m : MsgId) (sysid compid len : Byte),
    headerOf Config.hw s = some header → payloadOf s = some payload → declaredLen s = some len →
    msgidOf s = some m → sysidOf s = some sysid → compidOf s = some compid →
    (m ≠ 0#24 → m ≠ 253#24 →
      finalize Config.hw s = .next { s with st := .awaitSync, out := .frameRejected .noExtra }) ∧
    (∀ extra : Byte, (m = 0#24 ∧ extra = 50#8) ∨ (m = 253#24 ∧ extra = 83#8) →
      let crc := accumulate 0xFF#16 (header ++ payload ++ [extra]) 0xFFFF#16
      (crc ≠ s.crcRx →
        finalize Config.hw s = .next { s with st := .awaitSync, out := .frameRejected .crcMismatch }) ∧
      (crc = s.crcRx →
        finalize Config.hw s =
          .next { s with st := .awaitSync,
                         out := .frameReady { msgid := m, sysid := sysid, compid := compid, len := len,
                                              payload := payload, v2 := s.ver2, signed := s.sgn } }))

/-- 30_encoding.md R63 to R66, 20_memory.md R42: the fields of a captured header, as numbers. -/
def Obligations.HeaderFieldsAreAssembled : Prop :=
  ∀ (s : State) (h : List Byte), headerOf Config.hw s = some h →
    declaredLen s = h[0]? ∧
    (s.ver2 = true → h.length = 9 ∧ sysidOf s = h[4]? ∧ compidOf s = h[5]? ∧
      ∃ m b0 b1 b2, msgidOf s = some m ∧ h[6]? = some b0 ∧ h[7]? = some b1 ∧ h[8]? = some b2 ∧
        m.toNat = b0.toNat + 256 * b1.toNat + 65536 * b2.toNat) ∧
    (s.ver2 = false → h.length = 5 ∧ sysidOf s = h[2]? ∧ compidOf s = h[3]? ∧
      ∃ m b, msgidOf s = some m ∧ h[4]? = some b ∧ m.toNat = b.toNat)

/-- 30_encoding.md R68: the extra byte table. -/
def Obligations.ExtraByteTable : Prop :=
  extraOf Config.hw 0#24 = some 50#8 ∧ extraOf Config.hw 253#24 = some 83#8 ∧
  ∀ m : MsgId, m ≠ 0#24 → m ≠ 253#24 → extraOf Config.hw m = none

/-! ### Whole-machine rules -/

/-- 10_state.md R39 (a) to (e), R29, and the buffers' canonical form: every step keeps the invariant, from every state
that meets it. The clauses on the buffers' canonical form and sizes are the model's own representation (log 2). -/
def Obligations.StepKeepsTheInvariant : Prop :=
  ∀ s t : State, FdInv s → step s = .next t → FdInv t

/-- The invariant holds at reset. The counter bounds there rest on the reset values that log 1 names. -/
def Obligations.InvariantHoldsAtReset : Prop := FdInv State.reset

/-- 41_decoder.md R95: in a state that meets the invariant every byte has a transition, with exactly one of the three
results, and `crc_acc` is neither read nor written. -/
def Obligations.DecByteAlwaysAnswers : Prop :=
  ∀ (s : State) (din : Byte) (seed : Crc), FdInv s →
    ∃ t, commandStep (packWord 0b001#3 din seed) s = .next t ∧ t.crcAcc = s.crcAcc ∧
      (∀ a, commandStep (packWord 0b001#3 din seed) { s with crcAcc := a } = .next { t with crcAcc := a }) ∧
      (t.out = .needMore ∨ (∃ k, t.out = .frameRejected k) ∨ ∃ m, t.out = .frameReady m) ∧
      (t.out.rejCause ≠ 0b00 → ∃ k, t.out = .frameRejected k)

/-- 20_memory.md R41: only a HEADER_BYTE writes `hdr`, and there the byte at `hidx` with `din`; only a PAYLOAD_BYTE
writes `pay`, and there the byte at `pidx` with `din`. -/
def Obligations.OnlyDecByteWritesTheBuffers : Prop :=
  ∀ (w : CmdWord) (s t : State), commandStep w s = .next t →
    (∀ i, Memory.read t.hdr i ≠ Memory.read s.hdr i →
      cmdField w = 0b001 ∧ s.st = .header ∧ i = s.hidx.toNat ∧ i < 9 ∧
        Memory.read t.hdr i = some (dinField w)) ∧
    (∀ i, Memory.read t.pay i ≠ Memory.read s.pay i →
      cmdField w = 0b001 ∧ s.st = .payload ∧ i = s.pidx.toNat ∧ i < 255 ∧
        Memory.read t.pay i = some (dinField w))

/-- 10_state.md R34, R23, R31: `ver2` changes only at a sync byte; `sgn` changes only at a sync byte, which clears it,
and at byte 1 of a version-2 header, which sets it to bit 0. -/
def Obligations.FlagsHaveNoOtherWriters : Prop :=
  ∀ (w : CmdWord) (s t : State), commandStep w s = .next t →
    (t.ver2 ≠ s.ver2 →
      cmdField w = 0b001 ∧ s.st = .awaitSync ∧
        ((t.ver2 = true ∧ dinField w = 0xFD#8) ∨ (t.ver2 = false ∧ dinField w = 0xFE#8))) ∧
    (t.sgn ≠ s.sgn →
      cmdField w = 0b001 ∧
        ((s.st = .awaitSync ∧ (dinField w = 0xFD#8 ∨ dinField w = 0xFE#8) ∧ t.sgn = false) ∨
         (s.st = .header ∧ s.ver2 = true ∧ s.hidx.toNat = 1 ∧ t.sgn = (dinField w).getLsbD 0)))

/-- 10_state.md R21, R25, R28, R30, R32: a command that is no DEC_BYTE leaves the counters and `crc_rx` alone, and moves
`st` only as DEC_CLEAR does; and each counter and each half of `crc_rx` has its own writers. -/
def Obligations.PositionAndChecksumHaveNoOtherWriters : Prop :=
  ∀ (w : CmdWord) (s t : State), commandStep w s = .next t →
    (cmdField w ≠ 0b001 →
      t.hidx = s.hidx ∧ t.pidx = s.pidx ∧ t.sidx = s.sidx ∧ t.crcRx = s.crcRx ∧
      t.st = (if cmdField w = 0b010 then .awaitSync else s.st)) ∧
    (t.hidx ≠ s.hidx →
      (s.st = .awaitSync ∧ (dinField w = 0xFD#8 ∨ dinField w = 0xFE#8) ∧ t.hidx.toNat = 0) ∨
      (s.st = .header ∧ t.hidx = s.hidx + 1)) ∧
    (t.pidx ≠ s.pidx →
      (s.st = .header ∧ s.hidx.toNat + 1 = (if s.ver2 then 9 else 5) ∧ t.pidx.toNat = 0) ∨
      (s.st = .payload ∧ t.pidx = s.pidx + 1)) ∧
    (t.sidx ≠ s.sidx →
      (s.st = .checksumHigh ∧ s.ver2 = true ∧ s.sgn = true ∧ t.sidx.toNat = 0) ∨
      (s.st = .signature ∧ t.sidx = s.sidx + 1)) ∧
    (t.crcRx ≠ s.crcRx →
      (s.st = .checksumLow ∧ t.crcRx.toNat = s.crcRx.toNat / 256 * 256 + (dinField w).toNat) ∨
      (s.st = .checksumHigh ∧ t.crcRx.toNat = (dinField w).toNat * 256 + s.crcRx.toNat % 256))

/-- 60_exceptions.md R137: a rejecting step is a DEC_BYTE that sets `st` to AwaitSync and, beside the capture of its own
byte in `hdr` or in the high byte of `crc_rx`, changes no state. -/
def Obligations.RejectionSavesNothing : Prop :=
  ∀ (w : CmdWord) (s t : State) (k : RejCause), commandStep w s = .next t → t.out = .frameRejected k →
    cmdField w = 0b001 ∧ t.st = .awaitSync ∧ t.ver2 = s.ver2 ∧ t.hidx = s.hidx ∧ t.pidx = s.pidx ∧
    t.pay = s.pay ∧ t.sgn = s.sgn ∧ t.sidx = s.sidx ∧ t.crcAcc = s.crcAcc ∧ t.input = s.input ∧
    (s.st ≠ .header → t.hdr = s.hdr) ∧ (s.st ≠ .checksumHigh → t.crcRx = s.crcRx) ∧
    t.crcRx.toNat % 256 = s.crcRx.toNat % 256

/-- 60_exceptions.md R132, R133, R136: NO_EXTRA and CRC_MISMATCH come only from finalize, in CKSUM_HI of an unsigned
frame or in the 13th SIG_BYTE, NO_EXTRA exactly when the message id has no extra byte and CRC_MISMATCH only when it
has one and the checksums differ. -/
def Obligations.CausesComeFromFinalize : Prop :=
  ∀ (w : CmdWord) (s t : State) (k : RejCause), commandStep w s = .next t → t.out = .frameRejected k →
    ((s.st = .checksumHigh ∧ ¬(s.ver2 = true ∧ s.sgn = true)) ∨
      (s.st = .signature ∧ s.sidx.toNat + 1 = 13)) ∧
    ∃ m, msgidOf s = some m ∧
      ((k = .noExtra ∧ m ≠ 0#24 ∧ m ≠ 253#24) ∨
       (k = .crcMismatch ∧ ∃ header payload extra, headerOf Config.hw s = some header ∧
          payloadOf s = some payload ∧ extraOf Config.hw m = some extra ∧
          accumulate 0xFF#16 (header ++ payload ++ [extra]) 0xFFFF#16 ≠ t.crcRx))

/-- 30_encoding.md R74, 41_decoder.md R108: a Message comes only with a checksum that matched, its id is 0 or 253, its
payload has the declared length and is the captured payload, and its flags are the frame's. -/
def Obligations.MessagesAreSound : Prop :=
  ∀ (w : CmdWord) (s t : State) (m : Message), commandStep w s = .next t → t.out = .frameReady m →
    (m.msgid = 0#24 ∨ m.msgid = 253#24) ∧ msgidOf s = some m.msgid ∧
    m.payload.length = m.len.toNat ∧ declaredLen s = some m.len ∧ payloadOf s = some m.payload ∧
    sysidOf s = some m.sysid ∧ compidOf s = some m.compid ∧ m.v2 = s.ver2 ∧ m.signed = s.sgn ∧
    ∃ header extra, headerOf Config.hw s = some header ∧ extraOf Config.hw m.msgid = some extra ∧
      accumulate 0xFF#16 (header ++ m.payload ++ [extra]) 0xFFFF#16 = t.crcRx

/-- 30_encoding.md R55, R75, 20_memory.md R53: after a step the message ports carry the Message's fields with FRAME_READY
and nothing otherwise, `msg_payload` has 255 bytes of which those from `msg_len` up have no value, and `crc_out` is
`crc_acc`. -/
def Obligations.MessagePortsCarryTheMessage : Prop :=
  ∀ (w : CmdWord) (s t : State), commandStep w s = .next t →
    let p := portOut Config.hw t
    p.crcOut = t.crcAcc ∧ p.msgPayload.length = 255 ∧
    (p.res ≠ 0b11 → p.msgMsgid = none ∧ p.msgSysid = none ∧ p.msgCompid = none ∧ p.msgLen = none ∧
      p.msgV2 = none ∧ p.msgSigned = none ∧ ∀ b ∈ p.msgPayload, b = none) ∧
    (p.res = 0b11 → ∃ len : Byte, declaredLen s = some len ∧ p.msgLen = some len ∧
      p.msgMsgid = msgidOf s ∧ p.msgSysid = sysidOf s ∧ p.msgCompid = compidOf s ∧
      p.msgV2 = some (BitVec.ofBool s.ver2) ∧ p.msgSigned = some (BitVec.ofBool s.sgn) ∧
      ∀ i, (i < len.toNat → p.msgPayload[i]? = some (Memory.read s.pay i)) ∧
        (len.toNat ≤ i → i < 255 → p.msgPayload[i]? = some none))

/-- 41_decoder.md R109, R114: a DEC_BYTE outside AwaitSync returns to AwaitSync exactly when it ends the frame with a
result; no byte there starts another frame, whatever its value: `ver2` is kept, and a Header state follows only a
Header state, one byte further on. In AwaitSync a DEC_BYTE ends no frame. -/
def Obligations.AFrameEndsOnlyWithItsResult : Prop :=
  ∀ (w : CmdWord) (s t : State), commandStep w s = .next t → cmdField w = 0b001 →
    (s.st ≠ .awaitSync →
      (t.st = .awaitSync ↔ t.out.endsFrame = true) ∧ t.ver2 = s.ver2 ∧
      (t.st = .header → s.st = .header ∧ t.hidx.toNat = s.hidx.toNat + 1)) ∧
    (s.st = .awaitSync → t.out = .needMore)

/-- 10_state.md R38: from AwaitSync no result depends on any FD element but `st`. So no result depends on the reset
values that log 1 names or on the bytes that earlier frames left. -/
def Obligations.LeftoverStateIsUnobservable : Prop :=
  ∀ (ws : List CmdWord) (s t : State), s.st = .awaitSync → t.st = .awaitSync → s.crcAcc = t.crcAcc →
    seenResults (runCommands ws s) = seenResults (runCommands ws t)

/-- 70_reset_and_hazards.md R152: DEC_CLEAR resets `st` only, `crc_acc` is left alone, and every later result is that of
a power-on reset of the FD. The results do not depend on the values that log 1 names for the reset registers. -/
def Obligations.DecClearIsAResetOfTheDecoder : Prop :=
  ∀ s : State, ∃ u, commandStep clearWord s = .next u ∧ u = { s with st := .awaitSync, out := .none } ∧
    ∀ ws : List CmdWord, seenResults (runCommands ws u) =
      seenResults (runCommands ws { State.reset with crcAcc := s.crcAcc })

/-! ### Whole frames -/

/-- 41_decoder.md R113, 30_encoding.md R60: a well-formed frame fed from AwaitSync gives NEED_MORE for every byte but
the last and its result, as R107 decides it, on the last one; then the FD is in AwaitSync. -/
def Obligations.FrameGivesItsResultOnTheLastByte : Prop :=
  ∀ (f : Frame) (s : State), f.wellFormed Config.hw = true → s.st = .awaitSync →
    (f.bytes Config.hw).length = f.total ∧
    ∃ t, feed (f.bytes Config.hw) s =
        .next (List.replicate (f.total - 1) Result.needMore ++ [f.result Config.hw], t) ∧
      (f.result Config.hw).endsFrame = true ∧ t.st = .awaitSync ∧ t.crcAcc = s.crcAcc

/-- 41_decoder.md R116: the round trip of the HEARTBEAT of 30_encoding.md R79, in both versions. -/
def Obligations.HeartbeatRoundTrip : Prop :=
  ∀ (v2 : Bool) (seq sysid compid : Byte) (s : State), s.st = .awaitSync →
    ∃ t, feed ((heartbeatFrame Config.hw v2 seq sysid compid).bytes Config.hw) s =
        .next (List.replicate (if v2 then 20 else 16) Result.needMore ++
          [.frameReady { msgid := 0#24, sysid := sysid, compid := compid, len := 9#8,
                         payload := [0x00#8, 0x00#8, 0x00#8, 0x00#8, 0x12#8, 0x08#8, 0x00#8, 0x00#8, 0x03#8],
                         v2 := v2, signed := false }], t)

/-- 41_decoder.md R117: noise without a sync value never costs the frame that follows; noise with one may. -/
def Obligations.NoiseWithoutSyncValuesIsHarmless : Prop :=
  (∀ (noise : List Byte) (f : Frame) (s : State),
    (∀ b ∈ noise, b ≠ 0xFD#8 ∧ b ≠ 0xFE#8) → f.wellFormed Config.hw = true → f.valid Config.hw = true →
    s.st = .awaitSync →
    ∃ t, feed (noise ++ f.bytes Config.hw) s =
      .next (List.replicate (noise.length + (f.total - 1)) Result.needMore ++ [.frameReady f.message], t)) ∧
  (∃ (noise : List Byte) (f : Frame), f.wellFormed Config.hw = true ∧ f.valid Config.hw = true ∧
    ∃ rs t, feed (noise ++ f.bytes Config.hw) State.reset = .next (rs, t) ∧ ∀ r ∈ rs, r = .needMore)

/-- 41_decoder.md R118: a valid frame with one payload byte changed is rejected with CRC_MISMATCH on its last byte, and
the valid frame that follows at once is delivered. -/
def Obligations.CorruptedPayloadIsRejectedAndTheNextFrameDelivered : Prop :=
  ∀ (f g : Frame) (k : Nat) (b : Byte) (s : State) (hk : k < f.payload.length),
    f.wellFormed Config.hw = true → f.valid Config.hw = true → g.wellFormed Config.hw = true →
    g.valid Config.hw = true → f.payload[k] ≠ b → s.st = .awaitSync →
    ∃ t, feed (({ f with payload := f.payload.set k b } : Frame).bytes Config.hw ++ g.bytes Config.hw) s =
      .next (List.replicate (f.total - 1) Result.needMore ++ [.frameRejected .crcMismatch] ++
        List.replicate (g.total - 1) Result.needMore ++ [.frameReady g.message], t)

/-- 70_reset_and_hazards.md R158: whatever bytes follow a sync byte taken in AwaitSync, the FD is back in AwaitSync
after at least 7 and at most 279 of them, and not before. -/
def Obligations.AFrameEndsWithin279Bytes : Prop :=
  ∀ (s : State) (sync : Byte) (bs : List Byte), s.st = .awaitSync → sync = 0xFD#8 ∨ sync = 0xFE#8 →
    279 ≤ bs.length →
    ∃ n, 7 ≤ n ∧ n ≤ 279 ∧
      (∃ rs t, feed (sync :: bs.take n) s = .next (rs, t) ∧ t.st = .awaitSync) ∧
      (∀ m, m < n → ∃ rs t, feed (sync :: bs.take m) s = .next (rs, t) ∧ t.st ≠ .awaitSync)

/-- 41_decoder.md R115: a private register that folds each header and payload byte as it arrives holds, when the payload
is complete, the checksum of FINALIZE up to the extra byte. -/
def Obligations.IncrementalChecksumEqualsTheOneAtFinalize : Prop :=
  ∀ (bs : List Byte) (s t : State) (r0 r : Crc), s.st = .awaitSync →
    incrementalRun Config.hw bs s r0 = .next (t, r) →
    t.st = .checksumLow ∨ t.st = .checksumHigh ∨ t.st = .signature →
    ∀ extra : Byte, frameCrcOf Config.hw t extra = some (crcStep Config.hw.crcTmpMask r extra)

/-! ### The assembler -/

/-- 30_encoding.md R76: the word of each line, and an immediate that does not fit is an assembly error. -/
def Obligations.AssemblerEmitsTheCommandWords : Prop :=
  assembleLine .nop = .ok [0b000#27] ∧ assembleLine .clear = .ok [0b010#27] ∧
  (∀ v, v < 256 →
    (∃ w : CmdWord, assembleLine (.byte v) = .ok [w] ∧ w.toNat = v * 8 + 1) ∧
    (∃ w : CmdWord, assembleLine (.acc v) = .ok [w] ∧ w.toNat = v * 8 + 5)) ∧
  (∀ v, v < 65536 → ∃ w : CmdWord, assembleLine (.seed v) = .ok [w] ∧ w.toNat = v * 2048 + 4) ∧
  (∀ v, 256 ≤ v → assembleLine (.byte v) = .error (.doesNotFit v) ∧
    assembleLine (.acc v) = .error (.doesNotFit v)) ∧
  (∀ v, 65536 ≤ v → assembleLine (.seed v) = .error (.doesNotFit v))

/-- 30_encoding.md R77: FEED and CRC are their expansions, in order, and `CRC s:` leaves `crc_out` at `accumulate`. -/
def Obligations.PseudoInstructionsExpand : Prop :=
  (∀ bs : List Byte, assembleLine (.feed (bs.map fun b => .imm b.toNat)) =
    assemble (bs.map fun b => .byte b.toNat)) ∧
  (∀ cs : List Char, (∀ c ∈ cs, c.toNat < 128) →
    assembleLine (.feed [.text cs]) = assemble (cs.map fun c => .byte c.toNat)) ∧
  (∀ xs ys : List FeedItem, ∀ us vs, assembleLine (.feed xs) = .ok us → assembleLine (.feed ys) = .ok vs →
    assembleLine (.feed (xs ++ ys)) = .ok (us ++ vs)) ∧
  (∀ (seed : Crc) (bs : List Byte),
    assembleLine (.crc seed.toNat (bs.map BitVec.toNat)) =
      assemble (.seed seed.toNat :: bs.map fun b => .acc b.toNat) ∧
    ∃ ws, assembleLine (.crc seed.toNat (bs.map BitVec.toNat)) = .ok ws ∧
      ∀ s : State, ∃ rs t, runCommands ws s = .next (rs, t) ∧
        t.crcOut = some (accumulate 0xFF#16 bs seed))
end

