-- ==== Sys2Proof/Laws/Decode.lean ====
section
/-! SUPPORT. The fields of a packed word, and what the decoder answers on one. -/

namespace Sys2Proof

/-- The bits of a packed word (30_encoding.md R59). -/
theorem getLsbD_packWord (cmd : BitVec 3) (din : Byte) (seed : Crc) (i : Nat) :
    (packWord cmd din seed).getLsbD i =
      if i < 3 then cmd.getLsbD i else if i < 11 then din.getLsbD (i - 3) else seed.getLsbD (i - 11) := by
  have h : (packWord cmd din seed).getLsbD i = BitVec.getLsbD (w := 16 + 8 + 3) (seed ++ din ++ cmd) i := rfl
  rw [h, BitVec.getLsbD_append, BitVec.getLsbD_append]
  by_cases h3 : i < 3
  · simp [h3]
  · by_cases h11 : i < 11
    · simp [h3, h11, show i - 3 < 8 by omega]
    · simp [h3, h11, show ¬ i - 3 < 8 by omega, show i - 3 - 8 = i - 11 by omega]

@[simp] theorem cmdField_packWord (cmd : BitVec 3) (din : Byte) (seed : Crc) :
    cmdField (packWord cmd din seed) = cmd := by
  refine BitVec.eq_of_getLsbD_eq fun i hi => ?_
  simp [cmdField, getLsbD_packWord, hi]

@[simp] theorem dinField_packWord (cmd : BitVec 3) (din : Byte) (seed : Crc) :
    dinField (packWord cmd din seed) = din := by
  refine BitVec.eq_of_getLsbD_eq fun i hi => ?_
  simp [dinField, getLsbD_packWord, hi, show 3 + i < 11 by omega]

@[simp] theorem seedField_packWord (cmd : BitVec 3) (din : Byte) (seed : Crc) :
    seedField (packWord cmd din seed) = seed := by
  refine BitVec.eq_of_getLsbD_eq fun i hi => ?_
  simp [seedField, getLsbD_packWord, hi, show ¬ 11 + i < 3 by omega]

/-- A word is the packing of its three fields. -/
theorem packWord_fields (w : CmdWord) : packWord (cmdField w) (dinField w) (seedField w) = w := by
  refine BitVec.eq_of_getLsbD_eq fun i hi => ?_
  rw [getLsbD_packWord]
  simp only [cmdField, dinField, seedField, BitVec.getLsbD_extractLsb']
  by_cases h3 : i < 3
  · simp [h3]
  · by_cases h11 : i < 11
    · simp [h3, h11, show i - 3 < 8 by omega, show 3 + (i - 3) = i by omega]
    · simp [h3, h11, show i - 11 < 16 by omega, show 11 + (i - 11) = i by omega]

/-- The low bits of a mask of ones. -/
theorem getLsbD_mask11 (i : Nat) : (0x7FF#27).getLsbD i = decide (i < 11) := by
  by_cases h : i < 27
  · have key : ∀ j : Fin 27, (0x7FF#27).getLsbD j = decide (j.1 < 11) := by decide
    exact key ⟨i, h⟩
  · rw [BitVec.getLsbD_of_ge _ _ (by omega)]; simp; omega

theorem getLsbD_mask3 (i : Nat) : (0x7#27).getLsbD i = decide (i < 3) := by
  by_cases h : i < 27
  · have key : ∀ j : Fin 27, (0x7#27).getLsbD j = decide (j.1 < 3) := by decide
    exact key ⟨i, h⟩
  · rw [BitVec.getLsbD_of_ge _ _ (by omega)]; simp; omega

/-- The low eleven bits of a word are its `cmd` and `din`. -/
theorem packWord_low11 (cmd : BitVec 3) (din : Byte) (seed : Crc) :
    packWord cmd din seed &&& 0x7FF#27 = packWord cmd din 0#16 := by
  refine BitVec.eq_of_getLsbD_eq fun i hi => ?_
  rw [BitVec.getLsbD_and, getLsbD_mask11, getLsbD_packWord, getLsbD_packWord]
  by_cases h3 : i < 3
  · simp [h3, show i < 11 by omega]
  · by_cases h11 : i < 11 <;> simp [h3, h11]

/-- The low three bits of a word are its `cmd`. -/
theorem packWord_low3 (cmd : BitVec 3) (din : Byte) (seed : Crc) :
    packWord cmd din seed &&& 0x7#27 = packWord cmd 0#8 0#16 := by
  refine BitVec.eq_of_getLsbD_eq fun i hi => ?_
  rw [BitVec.getLsbD_and, getLsbD_mask3, getLsbD_packWord, getLsbD_packWord]
  by_cases h3 : i < 3 <;> simp [h3]

/-- Two packed words are equal exactly when their fields are. -/
theorem packWord_inj {cmd cmd' : BitVec 3} {din din' : Byte} {seed seed' : Crc} :
    packWord cmd din seed = packWord cmd' din' seed' ↔ cmd = cmd' ∧ din = din' ∧ seed = seed' := by
  constructor
  · intro h
    exact ⟨by simpa using congrArg cmdField h, by simpa using congrArg dinField h,
      by simpa using congrArg seedField h⟩
  · rintro ⟨rfl, rfl, rfl⟩; rfl

/-- What the decoder answers, by the command code (30_encoding.md R56). -/
theorem decode_cases (c : Config) (st : ParserState) (w : CmdWord) :
    (cmdField w = 0b000#3 ∧ decode c st w = .nop) ∨
    (cmdField w = 0b001#3 ∧ decode c st w = decodeByte c st (dinField w)) ∨
    (cmdField w = 0b010#3 ∧ decode c st w = .decClear) ∨
    (cmdField w = 0b011#3 ∧ decode c st w = .reserved011) ∨
    (cmdField w = 0b100#3 ∧ decode c st w = .crcSeed (seedField w)) ∨
    (cmdField w = 0b101#3 ∧ decode c st w = .crcAcc (dinField w)) ∨
    (cmdField w = 0b110#3 ∧ decode c st w = .reserved110) ∨
    (cmdField w = 0b111#3 ∧ decode c st w = .reserved111) := by
  have key : ∀ v : BitVec 3, v = 0 ∨ v = 1 ∨ v = 2 ∨ v = 3 ∨ v = 4 ∨ v = 5 ∨ v = 6 ∨ v = 7 := by decide
  rcases key (cmdField w) with h | h | h | h | h | h | h | h <;> simp [decode, h]

/-- A DEC_BYTE word decodes to a row of the parser state (30_encoding.md R78). -/
theorem decode_byte (c : Config) (st : ParserState) (din : Byte) (seed : Crc) :
    decode c st (packWord 0b001#3 din seed) = decodeByte c st din := by
  simp [decode]

end Sys2Proof
end

