-- ==== Sys2Proof/Laws/Memory.lean ====
section
/-! SUPPORT. The capture buffers: read after write, the canonical form, and runs of bytes. -/

namespace Sys2Proof.Machine

namespace Memory

@[simp] theorem read_nil (a : Nat) : read [] a = none := rfl

theorem read_cons (k : Nat) (v : Byte) (m : Memory) (a : Nat) :
    read ((k, v) :: m) a = if k = a then some v else read m a := rfl

/-- Read after write: the written byte at its index, every other byte as before. It needs no canonical form. -/
theorem read_write (m : Memory) (a : Nat) (v : Byte) (b : Nat) :
    read (write m a v) b = if a = b then some v else read m b := by
  induction m with
  | nil => rfl
  | cons cell rest ih =>
    obtain ⟨k, w⟩ := cell
    simp only [write]
    split
    · next h => subst h; simp only [read_cons]; split <;> rfl
    · split
      · rfl
      · next h _ =>
        simp only [read_cons, ih]
        split
        · next hk => subst hk; simp [Ne.symm h]
        · rfl

@[simp] theorem read_write_self (m : Memory) (a : Nat) (v : Byte) : read (write m a v) a = some v := by
  simp [read_write]

theorem read_write_of_ne (m : Memory) {a b : Nat} (v : Byte) (h : a ≠ b) :
    read (write m a v) b = read m b := by
  simp [read_write, h]

/-- The first index of a written buffer is the old first index or the written one. -/
theorem head_write (m : Memory) (a : Nat) (v : Byte) :
    ∃ u rest, write m a v = u :: rest ∧ (u.1 = a ∨ ∃ c r, m = c :: r ∧ u.1 = c.1 ∧ c.1 < a) := by
  cases m with
  | nil => exact ⟨_, _, rfl, .inl rfl⟩
  | cons c r =>
    obtain ⟨k, w⟩ := c
    simp only [write]
    split
    · exact ⟨_, _, rfl, .inl rfl⟩
    · split
      · exact ⟨_, _, rfl, .inl rfl⟩
      · exact ⟨_, _, rfl, .inr ⟨_, _, rfl, rfl, by omega⟩⟩

theorem wf_tail {cell : Host.Cell} {m : Memory} (h : wf (cell :: m) = true) : wf m = true := by
  cases m with
  | nil => rfl
  | cons c r => simp only [wf, Bool.and_eq_true] at h; exact h.2

/-- A write keeps the canonical form. -/
theorem write_wf (m : Memory) (a : Nat) (v : Byte) (h : wf m = true) : wf (write m a v) = true := by
  induction m with
  | nil => rfl
  | cons cell rest ih =>
    obtain ⟨k, w⟩ := cell
    have ht := ih (wf_tail h)
    simp only [write]
    split
    · next hk => subst hk; cases rest <;> simp_all [wf]
    · split
      · next hlt => simpa [wf, hlt] using h
      · next hne hge =>
        obtain ⟨u, r, hw, hu⟩ := head_write rest a v
        rw [hw] at ht ⊢
        have hk : k < u.1 := by
          rcases hu with hu | ⟨c, r', hr, hu, _⟩
          · omega
          · subst hr; simp only [wf, Bool.and_eq_true, decide_eq_true_eq] at h; omega
        simp [wf, hk, ht]

/-- A write inside the buffer keeps every index inside it. -/
theorem write_within (m : Memory) (size a : Nat) (v : Byte) (ha : a < size) (h : Within m size) :
    Within (write m a v) size := by
  induction m with
  | nil => intro cell hc; simp only [write, List.mem_singleton] at hc; subst hc; exact ha
  | cons cell rest ih =>
    obtain ⟨k, w⟩ := cell
    have hk : k < size := h (k, w) (by simp)
    have hr : Within rest size := fun c hc => h c (by simp [hc])
    simp only [write]
    intro c hc
    split at hc
    · rcases List.mem_cons.1 hc with rfl | hc
      · exact ha
      · exact hr c hc
    · split at hc
      · rcases List.mem_cons.1 hc with rfl | hc
        · exact ha
        · exact h c hc
      · rcases List.mem_cons.1 hc with rfl | hc
        · exact hk
        · exact ih hr c hc

/-- Everything that a store can answer. -/
theorem store_eq_some {size : Nat} {m m' : Memory} {a : Nat} {v : Byte} :
    store size m a v = some m' ↔ a < size ∧ m' = write m a v := by
  unfold store
  split <;> simp_all [eq_comm]

theorem store_of_lt {size : Nat} {m : Memory} {a : Nat} {v : Byte} (h : a < size) :
    store size m a v = some (write m a v) := by
  simp [store, h]

/-- A run of bytes reads exactly when each of its bytes does. -/
theorem readFrom_eq_some {m : Memory} {n a : Nat} {bs : List Byte} :
    readFrom m a n = some bs ↔ bs.length = n ∧ ∀ i (h : i < bs.length), read m (a + i) = some bs[i] := by
  induction n generalizing a bs with
  | zero => cases bs <;> simp [readFrom]
  | succ n ih =>
    cases bs with
    | nil =>
      simp only [readFrom]
      cases read m a <;> simp
      split <;> simp
    | cons b bs =>
      simp only [readFrom]
      constructor
      · intro h
        cases hr : read m a with
        | none => simp [hr] at h
        | some b' =>
          cases hf : readFrom m (a + 1) n with
          | none => simp [hr, hf] at h
          | some bs' =>
            simp only [hr, hf, Option.some.injEq, List.cons.injEq] at h
            obtain ⟨rfl, rfl⟩ := h
            obtain ⟨hl, hb⟩ := ih.1 hf
            refine ⟨by simp [hl], fun i hi => ?_⟩
            cases i with
            | zero => simpa using hr
            | succ i =>
              have := hb i (by simpa using hi)
              rw [List.getElem_cons_succ, ← this]
              congr 1; omega
      · rintro ⟨hl, hb⟩
        have h0 : read m a = some b := hb 0 (by simp)
        have hf : readFrom m (a + 1) n = some bs := by
          refine ih.2 ⟨by simpa using hl, fun i hi => ?_⟩
          have := hb (i + 1) (by simpa using hi)
          rw [List.getElem_cons_succ] at this
          rw [← this]; congr 1; omega
        simp [h0, hf]

theorem firstBytes_eq_some {m : Memory} {n : Nat} {bs : List Byte} :
    firstBytes m n = some bs ↔ bs.length = n ∧ ∀ i (h : i < bs.length), read m i = some bs[i] := by
  simp [firstBytes, readFrom_eq_some]

/-- The first `n` bytes can be read as a list exactly when they all hold values. -/
theorem firstBytes_isSome {m : Memory} {n : Nat} : (∃ bs, firstBytes m n = some bs) ↔ Written m n := by
  constructor
  · rintro ⟨bs, h⟩ i hi
    obtain ⟨hl, hb⟩ := firstBytes_eq_some.1 h
    rw [hb i (by omega)]; rfl
  · intro h
    refine ⟨List.ofFn fun i : Fin n => (read m i).get (h i i.isLt), firstBytes_eq_some.2 ⟨by simp, fun i hi => ?_⟩⟩
    simp

theorem firstBytes_write_of_le {m : Memory} {n a : Nat} (v : Byte) (h : n ≤ a) :
    firstBytes (write m a v) n = firstBytes m n := by
  refine Option.ext fun bs => ?_
  rw [firstBytes_eq_some, firstBytes_eq_some]
  constructor <;> rintro ⟨hl, hb⟩ <;> refine ⟨hl, fun i hi => ?_⟩ <;> have := hb i hi <;>
    rw [read_write_of_ne m v (by omega)] at * <;> exact this

/-- Appending the next byte of a run. -/
theorem firstBytes_write_succ {m : Memory} {n : Nat} {bs : List Byte} (v : Byte)
    (h : firstBytes m n = some bs) : firstBytes (write m n v) (n + 1) = some (bs ++ [v]) := by
  obtain ⟨hl, hb⟩ := firstBytes_eq_some.1 h
  refine firstBytes_eq_some.2 ⟨by simp [hl], fun i hi => ?_⟩
  by_cases hin : i = n
  · subst hin; subst hl; simp
  · rw [read_write_of_ne m v (Ne.symm hin), List.getElem_append_left (by simp at hi; omega)]
    exact hb i _

end Memory

theorem Written.write {m : Memory} {n : Nat} (h : Written m n) (a : Nat) (v : Byte) :
    Written (Memory.write m a v) n := by
  intro i hi
  rw [Memory.read_write]
  split
  · rfl
  · exact h i hi

theorem Written.write_succ {m : Memory} {n : Nat} (h : Written m n) (v : Byte) :
    Written (Memory.write m n v) (n + 1) := by
  intro i hi
  rw [Memory.read_write]
  split
  · rfl
  · exact h i (by omega)

end Sys2Proof.Machine
end

