-- ==== Sys2Proof/Laws/State.lean ====
section
/-! SUPPORT. One lemma for each field of State and each named update of it, so that no proof unfolds an update. -/

namespace Sys2Proof.Machine

/-! ### emit -/

@[simp] theorem emit_st (r : Result) (s : State) : (emit r s).st = s.st := rfl
@[simp] theorem emit_ver2 (r : Result) (s : State) : (emit r s).ver2 = s.ver2 := rfl
@[simp] theorem emit_hidx (r : Result) (s : State) : (emit r s).hidx = s.hidx := rfl
@[simp] theorem emit_hdr (r : Result) (s : State) : (emit r s).hdr = s.hdr := rfl
@[simp] theorem emit_pidx (r : Result) (s : State) : (emit r s).pidx = s.pidx := rfl
@[simp] theorem emit_pay (r : Result) (s : State) : (emit r s).pay = s.pay := rfl
@[simp] theorem emit_crcRx (r : Result) (s : State) : (emit r s).crcRx = s.crcRx := rfl
@[simp] theorem emit_sgn (r : Result) (s : State) : (emit r s).sgn = s.sgn := rfl
@[simp] theorem emit_sidx (r : Result) (s : State) : (emit r s).sidx = s.sidx := rfl
@[simp] theorem emit_crcAcc (r : Result) (s : State) : (emit r s).crcAcc = s.crcAcc := rfl
@[simp] theorem emit_input (r : Result) (s : State) : (emit r s).input = s.input := rfl
@[simp] theorem emit_out (r : Result) (s : State) : (emit r s).out = r := rfl

/-! ### endFrame -/

@[simp] theorem endFrame_st (r : Result) (s : State) : (endFrame r s).st = .awaitSync := rfl
@[simp] theorem endFrame_ver2 (r : Result) (s : State) : (endFrame r s).ver2 = s.ver2 := rfl
@[simp] theorem endFrame_hidx (r : Result) (s : State) : (endFrame r s).hidx = s.hidx := rfl
@[simp] theorem endFrame_hdr (r : Result) (s : State) : (endFrame r s).hdr = s.hdr := rfl
@[simp] theorem endFrame_pidx (r : Result) (s : State) : (endFrame r s).pidx = s.pidx := rfl
@[simp] theorem endFrame_pay (r : Result) (s : State) : (endFrame r s).pay = s.pay := rfl
@[simp] theorem endFrame_crcRx (r : Result) (s : State) : (endFrame r s).crcRx = s.crcRx := rfl
@[simp] theorem endFrame_sgn (r : Result) (s : State) : (endFrame r s).sgn = s.sgn := rfl
@[simp] theorem endFrame_sidx (r : Result) (s : State) : (endFrame r s).sidx = s.sidx := rfl
@[simp] theorem endFrame_crcAcc (r : Result) (s : State) : (endFrame r s).crcAcc = s.crcAcc := rfl
@[simp] theorem endFrame_input (r : Result) (s : State) : (endFrame r s).input = s.input := rfl
@[simp] theorem endFrame_out (r : Result) (s : State) : (endFrame r s).out = r := rfl

/-! ### takeRejection -/

@[simp] theorem takeRejection_st (k : RejCause) (s : State) : (takeRejection k s).st = .awaitSync := rfl
@[simp] theorem takeRejection_ver2 (k : RejCause) (s : State) : (takeRejection k s).ver2 = s.ver2 := rfl
@[simp] theorem takeRejection_hidx (k : RejCause) (s : State) : (takeRejection k s).hidx = s.hidx := rfl
@[simp] theorem takeRejection_hdr (k : RejCause) (s : State) : (takeRejection k s).hdr = s.hdr := rfl
@[simp] theorem takeRejection_pidx (k : RejCause) (s : State) : (takeRejection k s).pidx = s.pidx := rfl
@[simp] theorem takeRejection_pay (k : RejCause) (s : State) : (takeRejection k s).pay = s.pay := rfl
@[simp] theorem takeRejection_crcRx (k : RejCause) (s : State) : (takeRejection k s).crcRx = s.crcRx := rfl
@[simp] theorem takeRejection_sgn (k : RejCause) (s : State) : (takeRejection k s).sgn = s.sgn := rfl
@[simp] theorem takeRejection_sidx (k : RejCause) (s : State) : (takeRejection k s).sidx = s.sidx := rfl
@[simp] theorem takeRejection_crcAcc (k : RejCause) (s : State) : (takeRejection k s).crcAcc = s.crcAcc := rfl
@[simp] theorem takeRejection_input (k : RejCause) (s : State) : (takeRejection k s).input = s.input := rfl
@[simp] theorem takeRejection_out (k : RejCause) (s : State) : (takeRejection k s).out = .frameRejected k := rfl

/-! ### startFrame -/

@[simp] theorem startFrame_st (v : Bool) (s : State) : (startFrame v s).st = .header := rfl
@[simp] theorem startFrame_ver2 (v : Bool) (s : State) : (startFrame v s).ver2 = v := rfl
@[simp] theorem startFrame_hidx (v : Bool) (s : State) : (startFrame v s).hidx = 0#4 := rfl
@[simp] theorem startFrame_hdr (v : Bool) (s : State) : (startFrame v s).hdr = s.hdr := rfl
@[simp] theorem startFrame_pidx (v : Bool) (s : State) : (startFrame v s).pidx = s.pidx := rfl
@[simp] theorem startFrame_pay (v : Bool) (s : State) : (startFrame v s).pay = s.pay := rfl
@[simp] theorem startFrame_crcRx (v : Bool) (s : State) : (startFrame v s).crcRx = s.crcRx := rfl
@[simp] theorem startFrame_sgn (v : Bool) (s : State) : (startFrame v s).sgn = false := rfl
@[simp] theorem startFrame_sidx (v : Bool) (s : State) : (startFrame v s).sidx = s.sidx := rfl
@[simp] theorem startFrame_crcAcc (v : Bool) (s : State) : (startFrame v s).crcAcc = s.crcAcc := rfl
@[simp] theorem startFrame_input (v : Bool) (s : State) : (startFrame v s).input = s.input := rfl
@[simp] theorem startFrame_out (v : Bool) (s : State) : (startFrame v s).out = s.out := rfl

/-! ### markSigned -/

@[simp] theorem markSigned_st (c : Config) (i : Nat) (b : Byte) (s : State) : (markSigned c i b s).st = s.st := rfl
@[simp] theorem markSigned_ver2 (c : Config) (i : Nat) (b : Byte) (s : State) : (markSigned c i b s).ver2 = s.ver2 := rfl
@[simp] theorem markSigned_hidx (c : Config) (i : Nat) (b : Byte) (s : State) : (markSigned c i b s).hidx = s.hidx := rfl
@[simp] theorem markSigned_hdr (c : Config) (i : Nat) (b : Byte) (s : State) : (markSigned c i b s).hdr = s.hdr := rfl
@[simp] theorem markSigned_pidx (c : Config) (i : Nat) (b : Byte) (s : State) : (markSigned c i b s).pidx = s.pidx := rfl
@[simp] theorem markSigned_pay (c : Config) (i : Nat) (b : Byte) (s : State) : (markSigned c i b s).pay = s.pay := rfl
@[simp] theorem markSigned_crcRx (c : Config) (i : Nat) (b : Byte) (s : State) : (markSigned c i b s).crcRx = s.crcRx := rfl
@[simp] theorem markSigned_sgn (c : Config) (i : Nat) (b : Byte) (s : State) : (markSigned c i b s).sgn = sgnAfter c s.ver2 i b s.sgn := rfl
@[simp] theorem markSigned_sidx (c : Config) (i : Nat) (b : Byte) (s : State) : (markSigned c i b s).sidx = s.sidx := rfl
@[simp] theorem markSigned_crcAcc (c : Config) (i : Nat) (b : Byte) (s : State) : (markSigned c i b s).crcAcc = s.crcAcc := rfl
@[simp] theorem markSigned_input (c : Config) (i : Nat) (b : Byte) (s : State) : (markSigned c i b s).input = s.input := rfl
@[simp] theorem markSigned_out (c : Config) (i : Nat) (b : Byte) (s : State) : (markSigned c i b s).out = s.out := rfl

/-! ### takeInput -/

@[simp] theorem takeInput_st (s : State) : (takeInput s).st = s.st := rfl
@[simp] theorem takeInput_ver2 (s : State) : (takeInput s).ver2 = s.ver2 := rfl
@[simp] theorem takeInput_hidx (s : State) : (takeInput s).hidx = s.hidx := rfl
@[simp] theorem takeInput_hdr (s : State) : (takeInput s).hdr = s.hdr := rfl
@[simp] theorem takeInput_pidx (s : State) : (takeInput s).pidx = s.pidx := rfl
@[simp] theorem takeInput_pay (s : State) : (takeInput s).pay = s.pay := rfl
@[simp] theorem takeInput_crcRx (s : State) : (takeInput s).crcRx = s.crcRx := rfl
@[simp] theorem takeInput_sgn (s : State) : (takeInput s).sgn = s.sgn := rfl
@[simp] theorem takeInput_sidx (s : State) : (takeInput s).sidx = s.sidx := rfl
@[simp] theorem takeInput_crcAcc (s : State) : (takeInput s).crcAcc = s.crcAcc := rfl
@[simp] theorem takeInput_input (s : State) : (takeInput s).input = s.input.tail := rfl
@[simp] theorem takeInput_out (s : State) : (takeInput s).out = s.out := rfl

/-! ### withFetchWord -/

@[simp] theorem withFetchWord_st (s : State) (n w : Nat) : (s.withFetchWord n w).st = s.st := rfl
@[simp] theorem withFetchWord_ver2 (s : State) (n w : Nat) : (s.withFetchWord n w).ver2 = s.ver2 := rfl
@[simp] theorem withFetchWord_hidx (s : State) (n w : Nat) : (s.withFetchWord n w).hidx = s.hidx := rfl
@[simp] theorem withFetchWord_hdr (s : State) (n w : Nat) : (s.withFetchWord n w).hdr = s.hdr := rfl
@[simp] theorem withFetchWord_pidx (s : State) (n w : Nat) : (s.withFetchWord n w).pidx = s.pidx := rfl
@[simp] theorem withFetchWord_pay (s : State) (n w : Nat) : (s.withFetchWord n w).pay = s.pay := rfl
@[simp] theorem withFetchWord_crcRx (s : State) (n w : Nat) : (s.withFetchWord n w).crcRx = s.crcRx := rfl
@[simp] theorem withFetchWord_sgn (s : State) (n w : Nat) : (s.withFetchWord n w).sgn = s.sgn := rfl
@[simp] theorem withFetchWord_sidx (s : State) (n w : Nat) : (s.withFetchWord n w).sidx = s.sidx := rfl
@[simp] theorem withFetchWord_crcAcc (s : State) (n w : Nat) : (s.withFetchWord n w).crcAcc = s.crcAcc := rfl
@[simp] theorem withFetchWord_input (s : State) (n w : Nat) : (s.withFetchWord n w).input = BitVec.ofNat 27 w :: s.input := rfl
@[simp] theorem withFetchWord_out (s : State) (n w : Nat) : (s.withFetchWord n w).out = s.out := rfl

/-! ### The consumer's view -/

@[simp] theorem crcOut_eq_crcAcc (s : State) : s.crcOut = s.crcAcc := rfl

end Sys2Proof.Machine
end

