-- ==== Sys2Proof/Laws/FrameDecoder.lean ====
section
/-! SUPPORT. What each shared operation of the frame decoder can answer, said once. -/

namespace Sys2Proof.Machine

@[simp] theorem hlen_hw (v : Bool) : hlen Config.hw v = if v then 9 else 5 := by cases v <;> rfl

@[simp] theorem hdrSize_hw : hdrSize Config.hw = 9 := rfl

@[simp] theorem maxPayload_hw : Config.hw.maxPayload = 255 := rfl

@[simp] theorem sigLen_hw : Config.hw.sigLen = 13 := rfl

@[simp] theorem syncV2_hw : Config.hw.syncV2 = 0xFD#8 := rfl

@[simp] theorem syncV1_hw : Config.hw.syncV1 = 0xFE#8 := rfl

@[simp] theorem crcTmpMask_hw : Config.hw.crcTmpMask = 0x00FF#16 := rfl

@[simp] theorem crcSeed_hw : Config.hw.crcSeed = 0xFFFF#16 := rfl

/-- A byte is never above `MAX_PAYLOAD` here (00_scope.md R7). -/
theorem not_oversize_hw (b : Byte) : ¬ Config.hw.maxPayload < b.toNat := by
  have := b.isLt
  simp only [maxPayload_hw]; omega

/-! ### The end of a frame writes `st` and the outputs only -/

@[simp] theorem endWith_st (s : State) (v : Except RejCause Message) : (endWith s v).st = .awaitSync := by
  cases v <;> rfl

@[simp] theorem endWith_ver2 (s : State) (v : Except RejCause Message) : (endWith s v).ver2 = s.ver2 := by
  cases v <;> rfl

@[simp] theorem endWith_hidx (s : State) (v : Except RejCause Message) : (endWith s v).hidx = s.hidx := by
  cases v <;> rfl

@[simp] theorem endWith_hdr (s : State) (v : Except RejCause Message) : (endWith s v).hdr = s.hdr := by
  cases v <;> rfl

@[simp] theorem endWith_pidx (s : State) (v : Except RejCause Message) : (endWith s v).pidx = s.pidx := by
  cases v <;> rfl

@[simp] theorem endWith_pay (s : State) (v : Except RejCause Message) : (endWith s v).pay = s.pay := by
  cases v <;> rfl

@[simp] theorem endWith_crcRx (s : State) (v : Except RejCause Message) : (endWith s v).crcRx = s.crcRx := by
  cases v <;> rfl

@[simp] theorem endWith_sgn (s : State) (v : Except RejCause Message) : (endWith s v).sgn = s.sgn := by
  cases v <;> rfl

@[simp] theorem endWith_sidx (s : State) (v : Except RejCause Message) : (endWith s v).sidx = s.sidx := by
  cases v <;> rfl

@[simp] theorem endWith_crcAcc (s : State) (v : Except RejCause Message) : (endWith s v).crcAcc = s.crcAcc := by
  cases v <;> rfl

@[simp] theorem endWith_input (s : State) (v : Except RejCause Message) : (endWith s v).input = s.input := by
  cases v <;> rfl

/-- The result that a decision emits. -/
@[simp] theorem endWith_error_out (s : State) (k : RejCause) :
    (endWith s (.error k)).out = .frameRejected k := rfl

@[simp] theorem endWith_ok_out (s : State) (m : Message) : (endWith s (.ok m)).out = .frameReady m := rfl

/-- FINALIZE answers a next state exactly when its decision can be formed, and then ends the frame with it. -/
theorem finalize_eq_next {c : Config} {s t : State} :
    finalize c s = .next t ↔ ∃ v, finalVerdict c s = some v ∧ t = endWith s v := by
  unfold finalize orUnwritten
  cases finalVerdict c s <;> simp [eq_comm]

theorem finalize_eq_fault {c : Config} {s : State} {f : Fault} :
    finalize c s = .fault f ↔ finalVerdict c s = none ∧ f = .unwrittenByte := by
  unfold finalize orUnwritten
  cases finalVerdict c s <;> simp [eq_comm]

theorem finalize_ne_refused {c : Config} {s : State} {r : Refusal} : finalize c s ≠ .refused r := by
  unfold finalize orUnwritten
  cases finalVerdict c s <;> simp

/-- Everything that FINALIZE can decide (41_decoder.md R107). -/
theorem finalVerdict_eq_some {c : Config} {s : State} {v : Except RejCause Message} :
    finalVerdict c s = some v ↔
      ∃ m, msgidOf s = some m ∧
        ((extraOf c m = none ∧ v = .error .noExtra) ∨
         ∃ x crc, extraOf c m = some x ∧ frameCrcOf c s x = some crc ∧
          ((crc ≠ s.crcRx ∧ v = .error .crcMismatch) ∨
           (crc = s.crcRx ∧ ∃ msg, messageOf s m = some msg ∧ v = .ok msg))) := by
  unfold finalVerdict
  cases msgidOf s with
  | none => simp
  | some m =>
    cases hx : extraOf c m with
    | none => simp [hx, eq_comm]
    | some x =>
      cases hc : frameCrcOf c s x with
      | none => simp [hx, hc]
      | some crc =>
        by_cases h : crc = s.crcRx
        · cases messageOf s m <;> simp [hx, hc, h, eq_comm]
        · simp [hx, hc, h, eq_comm]

/-- Everything that `messageOf` can answer. -/
theorem messageOf_eq_some {s : State} {m : MsgId} {msg : Message} :
    messageOf s m = some msg ↔
      msg.msgid = m ∧ sysidOf s = some msg.sysid ∧ compidOf s = some msg.compid ∧
        declaredLen s = some msg.len ∧ payloadOf s = some msg.payload ∧ msg.v2 = s.ver2 ∧
        msg.signed = s.sgn := by
  obtain ⟨mid, sid, cid, len, pl, v2, sg⟩ := msg
  unfold messageOf
  cases sysidOf s <;> cases compidOf s <;> cases declaredLen s <;> cases payloadOf s <;>
    simp [eq_comm]

/-- Everything that `frameCrcOf` can answer. -/
theorem frameCrcOf_eq_some {c : Config} {s : State} {x : Byte} {crc : Crc} :
    frameCrcOf c s x = some crc ↔
      ∃ h p, headerOf c s = some h ∧ payloadOf s = some p ∧ crc = frameCrc c h p x := by
  unfold frameCrcOf
  cases headerOf c s <;> cases payloadOf s <;> simp [eq_comm]

/-- Everything that `payloadOf` can answer. -/
theorem payloadOf_eq_some {s : State} {p : List Byte} :
    payloadOf s = some p ↔ ∃ l, declaredLen s = some l ∧ Memory.firstBytes s.pay l.toNat = some p := by
  unfold payloadOf
  cases declaredLen s <;> simp

/-- The end of the header: a byte with a value at `hdr[0]` decides between Payload and ChecksumLow. -/
theorem endHeader_eq_next {s t : State} :
    endHeader s = .next t ↔ ∃ l, declaredLen s = some l ∧
      ((0 < l.toNat ∧ t = emit .needMore { s with pidx := 0#8, st := .payload }) ∨
       (l.toNat = 0 ∧ t = emit .needMore { s with st := .checksumLow })) := by
  unfold endHeader
  cases declaredLen s with
  | none => simp
  | some l => by_cases h : 0 < l.toNat <;> simp [h, eq_comm] <;> intros <;> omega

/-- What HEADER_BYTE answers when it answers a next state. -/
theorem headerByte_eq_next {c : Config} {din : Byte} {s t : State} :
    headerByte c din s = .next t ↔
      s.hidx.toNat < hdrSize c ∧
      let s' : State := { s with hdr := Memory.write s.hdr s.hidx.toNat din }
      ((s.hidx.toNat = 0 ∧ c.maxPayload < din.toNat ∧ t = takeRejection .oversize s') ∨
       (¬(s.hidx.toNat = 0 ∧ c.maxPayload < din.toNat) ∧
        ((s.hidx.toNat + 1 = hlen c s.ver2 ∧ endHeader (markSigned c s.hidx.toNat din s') = .next t) ∨
         (s.hidx.toNat + 1 ≠ hlen c s.ver2 ∧
          t = emit .needMore { markSigned c s.hidx.toNat din s' with hidx := s.hidx + 1 })))) := by
  unfold headerByte Memory.store
  by_cases hlt : s.hidx.toNat < hdrSize c
  · simp only [hlt, if_true, true_and]
    unfold checkHeaderByte advanceHeader
    by_cases ho : s.hidx.toNat = 0 ∧ c.maxPayload < din.toNat
    · simp [ho, eq_comm]
    · by_cases he : s.hidx.toNat + 1 = hlen c s.ver2
      · simp only [ho, he, markSigned_ver2, if_true, if_false]; tauto
      · simp only [ho, he, markSigned_ver2, if_false]; simp [eq_comm]; tauto
  · simp [hlt]

/-- What PAYLOAD_BYTE answers when it answers a next state. -/
theorem payloadByte_eq_next {c : Config} {din : Byte} {s t : State} :
    payloadByte c din s = .next t ↔
      s.pidx.toNat < c.maxPayload ∧
      let s' : State := { s with pay := Memory.write s.pay s.pidx.toNat din }
      ∃ l, declaredLen s = some l ∧
        ((s.pidx.toNat + 1 = l.toNat ∧ t = emit .needMore { s' with st := .checksumLow }) ∨
         (s.pidx.toNat + 1 ≠ l.toNat ∧ t = emit .needMore { s' with pidx := s.pidx + 1 })) := by
  unfold payloadByte Memory.store
  by_cases hlt : s.pidx.toNat < c.maxPayload
  · simp only [hlt, if_true, true_and]
    unfold advancePayload
    have hd : declaredLen { s with pay := Memory.write s.pay s.pidx.toNat din } = declaredLen s := rfl
    rw [hd]
    cases declaredLen s with
    | none => simp
    | some l =>
      by_cases h : s.pidx.toNat + 1 = l.toNat
      · simp [h, eq_comm]
      · simp only [h, if_false, Option.some.injEq, exists_eq_left', false_and, ne_eq, not_false_eq_true,
          true_and, false_or, Host.Outcome.next.injEq]
        exact eq_comm
  · simp [hlt]

/-- What the byte after the first checksum byte answers when it answers a next state. -/
theorem afterChecksum_eq_next {c : Config} {s t : State} :
    afterChecksum c s = .next t ↔
      (s.ver2 = true ∧ s.sgn = true ∧ t = emit .needMore { s with sidx := 0#4, st := .signature }) ∨
      (¬(s.ver2 = true ∧ s.sgn = true) ∧ ∃ v, finalVerdict c s = some v ∧ t = endWith s v) := by
  unfold afterChecksum
  by_cases h : s.ver2 = true ∧ s.sgn = true
  · simp [h, eq_comm]
  · simp only [h, if_false, finalize_eq_next]; tauto

/-- What SIG_BYTE answers when it answers a next state. -/
theorem signatureByte_eq_next {c : Config} {s t : State} :
    signatureByte c s = .next t ↔
      (s.sidx.toNat + 1 = c.sigLen ∧ ∃ v, finalVerdict c s = some v ∧ t = endWith s v) ∨
      (s.sidx.toNat + 1 ≠ c.sigLen ∧ t = emit .needMore { s with sidx := s.sidx + 1 }) := by
  unfold signatureByte
  by_cases h : s.sidx.toNat + 1 = c.sigLen
  · simp [h, finalize_eq_next]
  · simp [h, eq_comm]

/-- The decoder's DEC_BYTE rows, by parser state (30_encoding.md R78). -/
theorem exec_decodeByte_awaitSync (c : Config) (din : Byte) (s : State) :
    exec (decodeByte c .awaitSync din) s =
      if din = c.syncV2 then .next (emit .needMore (startFrame true s))
      else if din = c.syncV1 then .next (emit .needMore (startFrame false s))
      else .next (emit .needMore s) := by
  simp only [decodeByte]
  by_cases h2 : din = c.syncV2
  · simp [h2, exec, execDecSyncV2]
  · by_cases h1 : din = c.syncV1
    · simp only [h2, if_false]; simp [h1, exec, execDecSyncV1]
    · simp [h2, h1, exec, execDecDiscard]

/-- A DEC_BYTE command is a step of its row (R95). -/
theorem commandStep_byte (din : Byte) (seed : Crc) (s : State) :
    commandStep (packWord 0b001#3 din seed) s = exec (decodeByte Config.hw s.st din) s := by
  simp [commandStep, decode_byte]

end Sys2Proof.Machine
end

