-- ==== Sys2Proof/Laws/Command.lean ====
section
/-! SUPPORT. What a command can do, said once: the FD's transitions of 41_decoder.md R112 as a relation, and the
inversion of a command step. -/

namespace Sys2Proof.Machine

/-- The state once `b` is stored at `hdr[hidx]` and the signed flag is settled (R99, R101). -/
abbrev afterHeaderByte (b : Byte) (s : State) : State :=
  markSigned Config.hw s.hidx.toNat b { s with hdr := Memory.write s.hdr s.hidx.toNat b }

/-- The state once `b` is stored at `pay[pidx]` (R103). -/
abbrev afterPayloadByte (b : Byte) (s : State) : State :=
  { s with pay := Memory.write s.pay s.pidx.toNat b }

/-- The transitions of one DEC_BYTE with this hardware's parameters, one constructor each (R112). -/
inductive ByteStep (b : Byte) (s : State) : State → Prop where
  | syncV2 (hst : s.st = .awaitSync) (hb : b = 0xFD#8) : ByteStep b s (emit .needMore (startFrame true s))
  | syncV1 (hst : s.st = .awaitSync) (hb : b = 0xFE#8) : ByteStep b s (emit .needMore (startFrame false s))
  | discard (hst : s.st = .awaitSync) (h2 : b ≠ 0xFD#8) (h1 : b ≠ 0xFE#8) : ByteStep b s (emit .needMore s)
  | headerMore (hst : s.st = .header) (hi : s.hidx.toNat < 9)
      (hne : s.hidx.toNat + 1 ≠ if s.ver2 then 9 else 5) :
      ByteStep b s (emit .needMore { afterHeaderByte b s with hidx := s.hidx + 1 })
  | headerToPayload (l : Byte) (hst : s.st = .header) (hi : s.hidx.toNat < 9)
      (he : s.hidx.toNat + 1 = if s.ver2 then 9 else 5) (hl : Memory.read s.hdr 0 = some l) (hpos : 0 < l.toNat) :
      ByteStep b s (emit .needMore { afterHeaderByte b s with pidx := 0#8, st := .payload })
  | headerToChecksum (l : Byte) (hst : s.st = .header) (hi : s.hidx.toNat < 9)
      (he : s.hidx.toNat + 1 = if s.ver2 then 9 else 5) (hl : Memory.read s.hdr 0 = some l) (hz : l.toNat = 0) :
      ByteStep b s (emit .needMore { afterHeaderByte b s with st := .checksumLow })
  | payloadMore (l : Byte) (hst : s.st = .payload) (hi : s.pidx.toNat < 255)
      (hl : declaredLen s = some l) (hne : s.pidx.toNat + 1 ≠ l.toNat) :
      ByteStep b s (emit .needMore { afterPayloadByte b s with pidx := s.pidx + 1 })
  | payloadDone (l : Byte) (hst : s.st = .payload) (hi : s.pidx.toNat < 255)
      (hl : declaredLen s = some l) (he : s.pidx.toNat + 1 = l.toNat) :
      ByteStep b s (emit .needMore { afterPayloadByte b s with st := .checksumLow })
  | checksumLow (hst : s.st = .checksumLow) :
      ByteStep b s (emit .needMore { s with crcRx := withLowByte s.crcRx b, st := .checksumHigh })
  | checksumHighSigned (hst : s.st = .checksumHigh) (hv : s.ver2 = true) (hs : s.sgn = true) :
      ByteStep b s
        (emit .needMore { s with crcRx := withHighByte s.crcRx b, sidx := 0#4, st := .signature })
  | checksumHighFinal (v : Except RejCause Message) (hst : s.st = .checksumHigh)
      (hu : ¬(s.ver2 = true ∧ s.sgn = true))
      (hv : finalVerdict Config.hw { s with crcRx := withHighByte s.crcRx b } = some v) :
      ByteStep b s (endWith { s with crcRx := withHighByte s.crcRx b } v)
  | signatureMore (hst : s.st = .signature) (hne : s.sidx.toNat + 1 ≠ 13) :
      ByteStep b s (emit .needMore { s with sidx := s.sidx + 1 })
  | signatureFinal (v : Except RejCause Message) (hst : s.st = .signature) (he : s.sidx.toNat + 1 = 13)
      (hv : finalVerdict Config.hw s = some v) : ByteStep b s (endWith s v)

/-- `hdr[0]` after a later header byte is the byte of before. -/
theorem declaredLen_afterHeaderByte (b : Byte) (s : State) (h : s.hidx.toNat ≠ 0) :
    declaredLen (afterHeaderByte b s) = Memory.read s.hdr 0 :=
  Memory.read_write_of_ne s.hdr b h

/-- A DEC_BYTE answers exactly the transitions of `ByteStep`. -/
theorem exec_decodeByte_next {b : Byte} {s t : State} :
    exec (decodeByte Config.hw s.st b) s = .next t ↔ ByteStep b s t := by
  constructor
  · intro h
    cases hst : s.st with
    | awaitSync =>
      rw [hst, exec_decodeByte_awaitSync] at h
      split at h
      · next hb => cases h; exact .syncV2 hst hb
      · next h2 =>
        split at h
        · next hb => cases h; exact .syncV1 hst hb
        · next h1 => cases h; exact .discard hst h2 h1
    | header =>
      rw [hst] at h
      obtain ⟨hi, hc⟩ := headerByte_eq_next.1 (show headerByte Config.hw b s = .next t from h)
      rcases hc with ⟨_, ho, _⟩ | ⟨_, ⟨he, hc⟩ | ⟨hne, rfl⟩⟩
      · exact absurd ho (not_oversize_hw b)
      · rw [hlen_hw] at he
        have h0 : s.hidx.toNat ≠ 0 := by split at he <;> omega
        obtain ⟨l, hl, hc⟩ := endHeader_eq_next.1 hc
        rw [show declaredLen _ = _ from declaredLen_afterHeaderByte b s h0] at hl
        rcases hc with ⟨hpos, rfl⟩ | ⟨hz, rfl⟩
        · exact .headerToPayload l hst hi he hl hpos
        · exact .headerToChecksum l hst hi he hl hz
      · rw [hlen_hw] at hne
        exact .headerMore hst hi hne
    | payload =>
      rw [hst] at h
      obtain ⟨hi, l, hl, hc⟩ := payloadByte_eq_next.1 (show payloadByte Config.hw b s = .next t from h)
      rcases hc with ⟨he, rfl⟩ | ⟨hne, rfl⟩
      · exact .payloadDone l hst hi hl he
      · exact .payloadMore l hst hi hl hne
    | checksumLow => rw [hst] at h; cases h; exact .checksumLow hst
    | checksumHigh =>
      rw [hst] at h
      rcases afterChecksum_eq_next.1
        (show afterChecksum Config.hw { s with crcRx := withHighByte s.crcRx b } = .next t from h) with
        ⟨hv, hs, rfl⟩ | ⟨hu, v, hv, rfl⟩
      · exact .checksumHighSigned hst hv hs
      · exact .checksumHighFinal v hst hu hv
    | signature =>
      rw [hst] at h
      rcases signatureByte_eq_next.1 (show signatureByte Config.hw s = .next t from h) with
        ⟨he, v, hv, rfl⟩ | ⟨hne, rfl⟩
      · exact .signatureFinal v hst he hv
      · exact .signatureMore hst hne
  · intro h
    cases h with
    | syncV2 hst hb => rw [hst, exec_decodeByte_awaitSync]; simp [hb]
    | syncV1 hst hb => rw [hst, exec_decodeByte_awaitSync]; simp [hb]
    | discard hst h2 h1 => rw [hst, exec_decodeByte_awaitSync]; simp [h2, h1]
    | headerMore hst hi hne =>
      rw [hst]
      exact headerByte_eq_next.2 ⟨hi, .inr ⟨fun h => not_oversize_hw b h.2, .inr ⟨by rwa [hlen_hw], rfl⟩⟩⟩
    | headerToPayload l hst hi he hl hpos =>
      rw [hst]
      have h0 : s.hidx.toNat ≠ 0 := by split at he <;> omega
      exact headerByte_eq_next.2 ⟨hi, .inr ⟨fun h => not_oversize_hw b h.2, .inl ⟨by rwa [hlen_hw],
        endHeader_eq_next.2 ⟨l, (declaredLen_afterHeaderByte b s h0).trans hl, .inl ⟨hpos, rfl⟩⟩⟩⟩⟩
    | headerToChecksum l hst hi he hl hz =>
      rw [hst]
      have h0 : s.hidx.toNat ≠ 0 := by split at he <;> omega
      exact headerByte_eq_next.2 ⟨hi, .inr ⟨fun h => not_oversize_hw b h.2, .inl ⟨by rwa [hlen_hw],
        endHeader_eq_next.2 ⟨l, (declaredLen_afterHeaderByte b s h0).trans hl, .inr ⟨hz, rfl⟩⟩⟩⟩⟩
    | payloadMore l hst hi hl hne =>
      rw [hst]; exact payloadByte_eq_next.2 ⟨hi, l, hl, .inr ⟨hne, rfl⟩⟩
    | payloadDone l hst hi hl he =>
      rw [hst]; exact payloadByte_eq_next.2 ⟨hi, l, hl, .inl ⟨he, rfl⟩⟩
    | checksumLow hst => rw [hst]; rfl
    | checksumHighSigned hst hv hs => rw [hst]; exact afterChecksum_eq_next.2 (.inl ⟨hv, hs, rfl⟩)
    | checksumHighFinal v hst hu hv => rw [hst]; exact afterChecksum_eq_next.2 (.inr ⟨hu, v, hv, rfl⟩)
    | signatureMore hst hne =>
      rw [show decodeByte Config.hw s.st b = .decSigByte b by rw [hst]; rfl]
      exact signatureByte_eq_next.2 (.inr ⟨hne, rfl⟩)
    | signatureFinal v hst he hv => rw [hst]; exact signatureByte_eq_next.2 (.inl ⟨he, v, hv, rfl⟩)

/-- The inversion of a command step: every way in which a command answers a next state. -/
theorem commandStep_next {w : CmdWord} {s t : State} :
    commandStep w s = .next t ↔
      (cmdField w = 0b000#3 ∧ t = emit .none s) ∨
      (cmdField w = 0b001#3 ∧ ByteStep (dinField w) s t) ∨
      (cmdField w = 0b010#3 ∧ t = emit .none { s with st := .awaitSync }) ∨
      (cmdField w = 0b100#3 ∧ t = emit .none { s with crcAcc := some (seedField w) }) ∨
      (cmdField w = 0b101#3 ∧ ∃ crc, s.crcAcc = some crc ∧
        t = emit .none { s with crcAcc := some (crcStep Config.hw.crcTmpMask crc (dinField w)) }) := by
  unfold commandStep
  rcases decode_cases Config.hw s.st w with ⟨hc, hd⟩ | ⟨hc, hd⟩ | ⟨hc, hd⟩ | ⟨hc, hd⟩ | ⟨hc, hd⟩ | ⟨hc, hd⟩ |
    ⟨hc, hd⟩ | ⟨hc, hd⟩ <;> rw [hd, hc]
  · simp [exec, execNop, eq_comm]
  · simp [exec_decodeByte_next]
  · simp [exec, execDecClear, eq_comm]
  · simp [exec, execReserved011, refuseReserved]
  · simp [exec, execCrcSeed, eq_comm]
  · simp only [exec, execCrcAcc]
    cases s.crcAcc <;> simp [eq_comm]
  · simp [exec, execReserved110, refuseReserved]
  · simp [exec, execReserved111, refuseReserved]

/-- A step runs the presented command on the state without it. -/
theorem step_eq_commandStep (s : State) : step s = commandStep (presentedWord s) (takeInput s) := rfl

/-- The state of `withFetchWord` presents its word next. -/
theorem presentedWord_withFetchWord (s : State) (n w : Nat) :
    presentedWord (s.withFetchWord n w) = BitVec.ofNat 27 w := rfl

/-- After the word of `withFetchWord` is taken, the state is the one of before. -/
theorem takeInput_withFetchWord (s : State) (n w : Nat) : takeInput (s.withFetchWord n w) = s := rfl

/-- The empty run. -/
@[simp] theorem runCommands_nil (s : State) : runCommands [] s = .next ([], s) := rfl

/-- A run that completes: its first command answers a next state and the rest of it completes from there. -/
theorem runCommands_cons_eq_next {w : CmdWord} {ws : List CmdWord} {s t : State} {rs : List Result} :
    runCommands (w :: ws) s = .next (rs, t) ↔
      ∃ u qs, commandStep w s = .next u ∧ runCommands ws u = .next (qs, t) ∧ rs = u.out :: qs := by
  simp only [runCommands]
  cases commandStep w s with
  | fault f => simp
  | refused r => simp
  | next u =>
    simp only [Host.Outcome.next.injEq]
    cases h : runCommands ws u with
    | fault f => simp [h]
    | refused r => simp [h]
    | next p =>
      obtain ⟨qs, v⟩ := p
      constructor
      · intro he
        cases he
        exact ⟨u, qs, rfl, h, rfl⟩
      · rintro ⟨u', qs', rfl, h', rfl⟩
        rw [h] at h'
        cases h'
        rfl

/-- Two runs in a row. -/
theorem runCommands_append_eq_next {ws vs : List CmdWord} {s t : State} {rs : List Result} :
    runCommands (ws ++ vs) s = .next (rs, t) ↔
      ∃ u ps qs, runCommands ws s = .next (ps, u) ∧ runCommands vs u = .next (qs, t) ∧ rs = ps ++ qs := by
  induction ws generalizing s rs with
  | nil => simp [eq_comm]
  | cons w ws ih =>
    simp only [List.cons_append, runCommands_cons_eq_next, ih]
    constructor
    · rintro ⟨u, qs, h1, ⟨v, ps, qs', h2, h3, rfl⟩, rfl⟩
      exact ⟨v, u.out :: ps, qs', ⟨u, ps, h1, h2, rfl⟩, h3, rfl⟩
    · rintro ⟨v, _, qs', ⟨u, ps, h1, h2, rfl⟩, h3, rfl⟩
      exact ⟨u, ps ++ qs', h1, ⟨v, ps, qs', h2, h3, rfl⟩, rfl⟩

end Sys2Proof.Machine
end

