-- ==== Sys2Proof/Laws/PerInstr.lean ====
section
/-! SUPPORT. The family EncodedRow: an instruction's canonical word meets its own row of spec/opcode_table.json. -/

namespace Sys2Proof.Laws.EncodedRow

/-- The encoder's word has the row's fixed bits and none of the patterns that the row excludes. -/
def Statement (i : Instr) : Prop :=
  i.wellFormed Config.hw = true → i.row.covers (encode Config.hw i) = true

/-- A row whose only fixed field is `cmd` covers every word of that command. -/
theorem covers_ofCmd (cmd : BitVec 3) (din : Byte) (seed : Crc) :
    (Row.ofCmd (packWord cmd 0#8 0#16)).covers (packWord cmd din seed) = true := by
  simp [Row.covers, Row.ofCmd, packWord_low3]

theorem nop : Statement .nop := fun _ => rfl
theorem decClear : Statement .decClear := fun _ => rfl
theorem crcSeed (seed : Crc) : Statement (.crcSeed seed) := fun _ => covers_ofCmd 0b100#3 0#8 seed
theorem crcAcc (din : Byte) : Statement (.crcAcc din) := fun _ => covers_ofCmd 0b101#3 din 0#16
theorem decSyncV2 : Statement .decSyncV2 := fun _ => rfl
theorem decSyncV1 : Statement .decSyncV1 := fun _ => rfl
theorem decDiscard (din : Byte) : Statement (.decDiscard din) := by
  intro h
  have h2 : din ≠ 0xFD#8 ∧ din ≠ 0xFE#8 := by
    simpa [Instr.wellFormed, notSync, Config.hw] using h
  have e2 : (0x7E9#27 : CmdWord) = packWord 0b001#3 0xFD#8 0#16 := by decide
  have e1 : (0x7F1#27 : CmdWord) = packWord 0b001#3 0xFE#8 0#16 := by decide
  have e0 : (0x1#27 : CmdWord) = packWord 0b001#3 0#8 0#16 := by decide
  simp only [Instr.row, encode, Row.covers, Row.ofCmd, packWord_low3, e0, e1, e2]
  simp [packWord_low11, packWord_inj, h2.1, h2.2]
theorem decHeaderByte (din : Byte) : Statement (.decHeaderByte din) := fun _ => covers_ofCmd 0b001#3 din 0#16
theorem decPayloadByte (din : Byte) : Statement (.decPayloadByte din) := fun _ => covers_ofCmd 0b001#3 din 0#16
theorem decCksumLo (din : Byte) : Statement (.decCksumLo din) := fun _ => covers_ofCmd 0b001#3 din 0#16
theorem decCksumHi (din : Byte) : Statement (.decCksumHi din) := fun _ => covers_ofCmd 0b001#3 din 0#16
theorem decSigByte (din : Byte) : Statement (.decSigByte din) := fun _ => covers_ofCmd 0b001#3 din 0#16
theorem reserved011 : Statement .reserved011 := fun _ => rfl
theorem reserved110 : Statement .reserved110 := fun _ => rfl
theorem reserved111 : Statement .reserved111 := fun _ => rfl

end Sys2Proof.Laws.EncodedRow
end

