-- ==== Sys2Proof/Laws/Phase.lean ====
section
/-! SUPPORT. The frame decoder as a machine over lists: a phase holds the bytes captured so far as plain lists, and
the decoder's state follows it byte by byte. Proofs about whole frames and about the unobservable leftover state
argue on phases. -/

namespace Sys2Proof.Machine

/-- Where the FD is in a frame, with what it has captured. -/
inductive Phase where
  | idle
  | header (v2 : Bool) (h : List Byte)
  | payload (v2 : Bool) (h p : List Byte)
  | sumLow (v2 : Bool) (h p : List Byte)
  | sumHigh (v2 : Bool) (h p : List Byte) (lo : Byte)
  | sign (v2 : Bool) (h p : List Byte) (crc : Crc) (k : Nat)
deriving DecidableEq, Repr

/-- The signed flag of a captured header (30_encoding.md R64). -/
def listSigned (v2 : Bool) (h : List Byte) : Bool := v2 && (h.getD 1 0#8).getLsbD 0

/-- The declared length of a captured header (R63). -/
def listLen (h : List Byte) : Nat := (h.getD 0 0#8).toNat

/-- The message id of a captured header (R65). -/
def listMsgid (v2 : Bool) (h : List Byte) : MsgId :=
  if v2 then le24 (h.getD 6 0#8) (h.getD 7 0#8) (h.getD 8 0#8) else (h.getD 4 0#8).zeroExtend 24

/-- The Message of captured bytes (R75). -/
def listMessage (v2 : Bool) (h p : List Byte) : Message where
  msgid := listMsgid v2 h
  sysid := if v2 then h.getD 4 0#8 else h.getD 2 0#8
  compid := if v2 then h.getD 5 0#8 else h.getD 3 0#8
  len := h.getD 0 0#8
  payload := p
  v2 := v2
  signed := listSigned v2 h

/-- The decision of FINALIZE on captured bytes (41_decoder.md R107). -/
def listVerdict (v2 : Bool) (h p : List Byte) (crc : Crc) : Except RejCause Message :=
  match extraOf Config.hw (listMsgid v2 h) with
  | none => .error .noExtra
  | some x =>
    if frameCrc Config.hw h p x ≠ crc then .error .crcMismatch else .ok (listMessage v2 h p)

/-- The result of a decision. -/
def verdictResult : Except RejCause Message → Result
  | .error k => .frameRejected k
  | .ok m => .frameReady m

/-- One byte, on phases (41_decoder.md R112). -/
def Phase.step (b : Byte) : Phase → Phase × Result
  | .idle =>
    if b = 0xFD#8 then (.header true [], .needMore)
    else if b = 0xFE#8 then (.header false [], .needMore)
    else (.idle, .needMore)
  | .header v2 h =>
    if h.length + 1 = (if v2 then 9 else 5) then
      if 0 < listLen (h ++ [b]) then (.payload v2 (h ++ [b]) [], .needMore)
      else (.sumLow v2 (h ++ [b]) [], .needMore)
    else (.header v2 (h ++ [b]), .needMore)
  | .payload v2 h p =>
    if p.length + 1 = listLen h then (.sumLow v2 h (p ++ [b]), .needMore)
    else (.payload v2 h (p ++ [b]), .needMore)
  | .sumLow v2 h p => (.sumHigh v2 h p b, .needMore)
  | .sumHigh v2 h p lo =>
    if listSigned v2 h then (.sign v2 h p (b ++ lo) 0, .needMore)
    else (.idle, verdictResult (listVerdict v2 h p (b ++ lo)))
  | .sign v2 h p crc k =>
    if k + 1 = 13 then (.idle, verdictResult (listVerdict v2 h p crc))
    else (.sign v2 h p crc (k + 1), .needMore)

/-- The state has captured the header `h` and the payload bytes `p`. -/
structure Holds (s : State) (v2 : Bool) (h p : List Byte) : Prop where
  ver2 : s.ver2 = v2
  hdr : Memory.firstBytes s.hdr h.length = some h
  full : h.length = if v2 then 9 else 5
  pay : Memory.firstBytes s.pay p.length = some p
  sgn : s.sgn = listSigned v2 h

/-- The state is in the phase. What the phase does not mention is free. -/
def InPhase (s : State) : Phase → Prop
  | .idle => s.st = .awaitSync
  | .header v2 h =>
    s.st = .header ∧ s.ver2 = v2 ∧ s.hidx.toNat = h.length ∧ h.length < (if v2 then 9 else 5) ∧
      Memory.firstBytes s.hdr h.length = some h ∧ s.sgn = listSigned v2 h
  | .payload v2 h p =>
    s.st = .payload ∧ Holds s v2 h p ∧ s.pidx.toNat = p.length ∧ p.length < listLen h
  | .sumLow v2 h p => s.st = .checksumLow ∧ Holds s v2 h p ∧ p.length = listLen h
  | .sumHigh v2 h p lo =>
    s.st = .checksumHigh ∧ Holds s v2 h p ∧ p.length = listLen h ∧ s.crcRx.extractLsb' 0 8 = lo
  | .sign v2 h p crc k =>
    s.st = .signature ∧ Holds s v2 h p ∧ p.length = listLen h ∧ s.crcRx = crc ∧ s.sidx.toNat = k ∧ k < 13 ∧
      listSigned v2 h = true

/-- The byte of a captured run. -/
theorem read_of_firstBytes {m : Memory} {h : List Byte} (hh : Memory.firstBytes m h.length = some h) {i : Nat}
    (hi : i < h.length) : Memory.read m i = some (h.getD i 0#8) := by
  rw [(Memory.firstBytes_eq_some.1 hh).2 i hi, List.getD_eq_getElem _ _ hi]

/-- The decision of FINALIZE on a state is the decision on the bytes that it holds. -/
theorem finalVerdict_of_holds {s : State} {v2 : Bool} {h p : List Byte} (hs : Holds s v2 h p)
    (hp : p.length = listLen h) : finalVerdict Config.hw s = some (listVerdict v2 h p s.crcRx) := by
  obtain ⟨rfl, hh, hf, hpay, hsgn⟩ := hs
  have hr : ∀ i, i < h.length → Memory.read s.hdr i = some (h.getD i 0#8) := fun i hi =>
    read_of_firstBytes hh hi
  have hl : declaredLen s = some (h.getD 0 0#8) := hr 0 (by split at hf <;> omega)
  have hm : msgidOf s = some (listMsgid s.ver2 h) := by
    unfold msgidOf listMsgid hdrByte
    cases hv : s.ver2 <;> simp only [hv, if_true] at hf
    · simp [hr 4 (by simp at hf; omega)]
    · simp [hr 6 (by omega), hr 7 (by omega), hr 8 (by omega)]
  have hpl : payloadOf s = some p := payloadOf_eq_some.2 ⟨_, hl, by
    rw [show (h.getD 0 0#8).toNat = p.length from hp.symm]; exact hpay⟩
  have hhd : headerOf Config.hw s = some h := by
    unfold headerOf; rw [hlen_hw, ← hf]; exact hh
  refine finalVerdict_eq_some.2 ⟨_, hm, ?_⟩
  unfold listVerdict
  cases hx : extraOf Config.hw (listMsgid s.ver2 h) with
  | none => exact .inl ⟨rfl, rfl⟩
  | some x =>
    refine .inr ⟨x, _, rfl, frameCrcOf_eq_some.2 ⟨h, p, hhd, hpl, rfl⟩, ?_⟩
    by_cases hc : frameCrc Config.hw h p x = s.crcRx
    · refine .inr ⟨hc, listMessage s.ver2 h p, messageOf_eq_some.2 ⟨rfl, ?_, ?_, hl, hpl, rfl, hsgn.symm⟩, by simp [hc]⟩
      · unfold sysidOf listMessage hdrByte
        cases hv : s.ver2 <;> simp only [hv, if_true] at hf
        · simp [hr 2 (by simp at hf; omega)]
        · simp [hr 4 (by omega)]
      · unfold compidOf listMessage hdrByte
        cases hv : s.ver2 <;> simp only [hv, if_true] at hf
        · simp [hr 3 (by simp at hf; omega)]
        · simp [hr 5 (by omega)]
    · exact .inl ⟨hc, by simp [hc]⟩

theorem endWith_out (s : State) (v : Except RejCause Message) : (endWith s v).out = verdictResult v := by
  cases v <;> rfl

theorem withHighByte_low (crc : Crc) (b : Byte) :
    withHighByte crc b = (b ++ crc.extractLsb' 0 8 : BitVec (8 + 8)) := rfl

theorem withLowByte_extract (crc : Crc) (b : Byte) : (withLowByte crc b).extractLsb' 0 8 = b := by
  refine BitVec.eq_of_getLsbD_eq fun i hi => ?_
  rw [BitVec.getLsbD_extractLsb']
  have h : (withLowByte crc b).getLsbD (0 + i) =
      BitVec.getLsbD (w := 8 + 8) (crc.extractLsb' 8 8 ++ b) (0 + i) := rfl
  rw [h, BitVec.getLsbD_append]
  simp [hi]

theorem listSigned_append {v2 : Bool} {h : List Byte} (b : Byte) (h1 : h.length ≠ 1) :
    listSigned v2 (h ++ [b]) = listSigned v2 h := by
  unfold listSigned
  cases h with
  | nil => simp
  | cons x xs =>
    cases xs with
    | nil => simp at h1
    | cons y ys => simp

/-- The state follows the phase: a DEC_BYTE in a phase answers a next state, in the phase's next phase and with its
result; `crc_acc` and the input are untouched. -/
theorem step_inPhase {s : State} {φ : Phase} (hφ : InPhase s φ) (b : Byte) :
    ∃ t, exec (decodeByte Config.hw s.st b) s = .next t ∧ InPhase t (φ.step b).1 ∧ t.out = (φ.step b).2 ∧
      t.crcAcc = s.crcAcc ∧ t.input = s.input := by
  cases φ with
  | idle =>
    simp only [Phase.step]
    by_cases h2 : b = 0xFD#8
    · exact ⟨_, exec_decodeByte_next.2 (.syncV2 hφ h2), by simp [h2, InPhase, listSigned, Memory.firstBytes, Memory.readFrom],
        by simp [h2], rfl, rfl⟩
    · by_cases h1 : b = 0xFE#8
      · exact ⟨_, exec_decodeByte_next.2 (.syncV1 hφ h1), by simp [h1, InPhase, listSigned, Memory.firstBytes, Memory.readFrom],
          by simp [h1], rfl, rfl⟩
      · exact ⟨_, exec_decodeByte_next.2 (.discard hφ h2 h1), by simp [h2, h1, InPhase]; exact hφ,
          by simp [h2, h1], rfl, rfl⟩
  | header v2 h =>
    obtain ⟨hst, rfl, hi, hlt, hh, hsg⟩ := hφ
    have h9 : s.hidx.toNat < 9 := by split at hlt <;> omega
    have hw : Memory.firstBytes (Memory.write s.hdr s.hidx.toNat b) (h ++ [b]).length = some (h ++ [b]) := by
      rw [hi]; simpa using Memory.firstBytes_write_succ b hh
    have hs' : sgnAfter Config.hw s.ver2 s.hidx.toNat b s.sgn = listSigned s.ver2 (h ++ [b]) := by
      unfold sgnAfter
      by_cases h1 : s.hidx.toNat = 1
      · obtain ⟨x, rfl⟩ := List.length_eq_one_iff.1 (hi ▸ h1)
        cases hv : s.ver2 <;> simp [hv, h1, hsg, listSigned, Config.hw]
      · rw [listSigned_append b (hi ▸ h1)]; simp [h1, hsg]
    simp only [Phase.step]
    by_cases he : h.length + 1 = if s.ver2 then 9 else 5
    · have hne : h ≠ [] := by rintro rfl; split at he <;> simp at he
      have hl0 : Memory.read s.hdr 0 = some ((h ++ [b]).getD 0 0#8) := by
        obtain ⟨x, xs, rfl⟩ := List.exists_cons_of_ne_nil hne
        simpa using read_of_firstBytes hh (i := 0) (by simp)
      have hold : ∀ s' : State, s'.ver2 = s.ver2 → s'.hdr = Memory.write s.hdr s.hidx.toNat b →
          s'.sgn = sgnAfter Config.hw s.ver2 s.hidx.toNat b s.sgn → Holds s' s.ver2 (h ++ [b]) [] := by
        intro s' e1 e2 e3
        exact ⟨e1, by rw [e2]; exact hw, by simpa using he, rfl, by rw [e3, hs']⟩
      by_cases hpos : 0 < listLen (h ++ [b])
      · refine ⟨_, exec_decodeByte_next.2 (.headerToPayload _ hst h9 (hi ▸ he) hl0 hpos), ?_, ?_, rfl, rfl⟩
        · rw [if_pos he, if_pos hpos]; exact ⟨rfl, hold _ rfl rfl rfl, rfl, hpos⟩
        · rw [if_pos he, if_pos hpos]; rfl
      · have hz : ((h ++ [b]).getD 0 0#8).toNat = 0 := by unfold listLen at hpos; omega
        refine ⟨_, exec_decodeByte_next.2 (.headerToChecksum _ hst h9 (hi ▸ he) hl0 hz), ?_, ?_, rfl, rfl⟩
        · rw [if_pos he, if_neg hpos]; exact ⟨rfl, hold _ rfl rfl rfl, hz.symm⟩
        · rw [if_pos he, if_neg hpos]; rfl
    · refine ⟨_, exec_decodeByte_next.2 (.headerMore hst h9 (hi ▸ he)), ?_, by rw [if_neg he]; rfl, rfl, rfl⟩
      rw [if_neg he]
      refine ⟨hst, rfl, ?_, by simp; omega, hw, hs'⟩
      show (s.hidx + 1#4).toNat = _
      rw [BitVec.toNat_add]; simp; omega
  | payload v2 h p =>
    obtain ⟨hst, hs, hi, hlt⟩ := hφ
    have hh0 : 0 < h.length := by have := hs.full; split at this <;> omega
    have hl : declaredLen s = some (h.getD 0 0#8) := read_of_firstBytes hs.hdr hh0
    have hb : (h.getD 0 0#8).toNat < 256 := (h.getD 0 0#8).isLt
    have h255 : s.pidx.toNat < 255 := by unfold listLen at hlt; omega
    have hw : Memory.firstBytes (Memory.write s.pay s.pidx.toNat b) (p ++ [b]).length = some (p ++ [b]) := by
      rw [hi]; simpa using Memory.firstBytes_write_succ b hs.pay
    simp only [Phase.step]
    by_cases he : p.length + 1 = listLen h
    · refine ⟨_, exec_decodeByte_next.2 (.payloadDone _ hst h255 hl (hi ▸ he)), ?_, by rw [if_pos he]; rfl, rfl, rfl⟩
      rw [if_pos he]
      exact ⟨rfl, ⟨hs.ver2, hs.hdr, hs.full, hw, hs.sgn⟩, by simpa using he⟩
    · refine ⟨_, exec_decodeByte_next.2 (.payloadMore _ hst h255 hl (hi ▸ he)), ?_, by rw [if_neg he]; rfl, rfl, rfl⟩
      rw [if_neg he]
      refine ⟨hst, ⟨hs.ver2, hs.hdr, hs.full, hw, hs.sgn⟩, ?_, by simp; omega⟩
      show (s.pidx + 1#8).toNat = _
      rw [BitVec.toNat_add]; simp; omega
  | sumLow v2 h p =>
    obtain ⟨hst, hs, hp⟩ := hφ
    exact ⟨_, exec_decodeByte_next.2 (.checksumLow hst),
      ⟨rfl, ⟨hs.ver2, hs.hdr, hs.full, hs.pay, hs.sgn⟩, hp, withLowByte_extract _ _⟩, rfl, rfl, rfl⟩
  | sumHigh v2 h p lo =>
    obtain ⟨hst, hs, hp, rfl⟩ := hφ
    have hs' : Holds { s with crcRx := withHighByte s.crcRx b } v2 h p :=
      ⟨hs.ver2, hs.hdr, hs.full, hs.pay, hs.sgn⟩
    simp only [Phase.step]
    by_cases hg : listSigned v2 h = true
    · have hv : s.ver2 = true := by rw [hs.ver2]; unfold listSigned at hg; simp at hg; exact hg.1
      refine ⟨_, exec_decodeByte_next.2 (.checksumHighSigned hst hv (by rw [hs.sgn, hg])), ?_, by rw [if_pos hg]; rfl, rfl, rfl⟩
      rw [if_pos hg]
      exact ⟨rfl, ⟨hs.ver2, hs.hdr, hs.full, hs.pay, hs.sgn⟩, hp, rfl, rfl, by omega, hg⟩
    · refine ⟨_, exec_decodeByte_next.2 (.checksumHighFinal _ hst (fun hc => hg (by rw [← hs.sgn]; exact hc.2))
        (finalVerdict_of_holds hs' hp)), ?_, ?_, by simp, by simp⟩
      · rw [if_neg hg]; exact endWith_st _ _
      · rw [if_neg hg, endWith_out]; rfl
  | sign v2 h p crc k =>
    obtain ⟨hst, hs, hp, rfl, rfl, hk, hg⟩ := hφ
    simp only [Phase.step]
    by_cases he : s.sidx.toNat + 1 = 13
    · refine ⟨_, exec_decodeByte_next.2 (.signatureFinal _ hst he (finalVerdict_of_holds hs hp)), ?_, ?_, by simp, by simp⟩
      · rw [if_pos he]; exact endWith_st _ _
      · rw [if_pos he, endWith_out]
    · refine ⟨_, exec_decodeByte_next.2 (.signatureMore hst he), ?_, by rw [if_neg he]; rfl, rfl, rfl⟩
      rw [if_neg he]
      refine ⟨hst, ⟨hs.ver2, hs.hdr, hs.full, hs.pay, hs.sgn⟩, hp, rfl, ?_, by omega, hg⟩
      show (s.sidx + 1#4).toNat = _
      rw [BitVec.toNat_add]; simp; omega

/-- A captured header's flag, from the state's header bytes (30_encoding.md R64). -/
theorem sgn_eq_listSigned {s : State} {h : List Byte} (hh : Memory.firstBytes s.hdr h.length = some h)
    (h1 : 1 < h.length) (hf : SignedFlagAgrees s) : s.sgn = listSigned s.ver2 h :=
  hf _ (read_of_firstBytes hh h1)

/-- A state that meets the invariant is in some phase. -/
theorem FdInv.inPhase {s : State} (hs : FdInv s) : ∃ φ, InPhase s φ := by
  have holds : ∀ n, s.st ≠ .awaitSync → s.st ≠ .header → Written s.hdr (hlen Config.hw s.ver2) →
      Written s.pay n → ∃ h p, Holds s s.ver2 h p ∧ p.length = n := by
    intro n ha hne hw hp
    obtain ⟨h, hh⟩ := Memory.firstBytes_isSome.2 hw
    obtain ⟨p, hpp⟩ := Memory.firstBytes_isSome.2 hp
    have hl := (Memory.firstBytes_eq_some.1 hh).1
    have hpl := (Memory.firstBytes_eq_some.1 hpp).1
    rw [← hl] at hh
    rw [← hpl] at hpp
    rw [hlen_hw] at hl
    refine ⟨h, p, ⟨rfl, hh, hl, hpp, sgn_eq_listSigned hh ?_ (hs.flag_agrees ha hne)⟩, hpl⟩
    split at hl <;> omega
  have len : ∀ {h p l}, Holds s s.ver2 h p → declaredLen s = some l → l.toNat = listLen h := by
    intro h p l hold hl
    have h0 : 0 < h.length := by have := hold.full; split at this <;> omega
    have := (read_of_firstBytes hold.hdr h0).symm.trans hl
    cases this; rfl
  cases hst : s.st with
  | awaitSync => exact ⟨.idle, hst⟩
  | header =>
    obtain ⟨h, hh⟩ := Memory.firstBytes_isSome.2 (hs.header_written hst)
    have hl := (Memory.firstBytes_eq_some.1 hh).1
    have hx := hs.header_index hst
    rw [← hl] at hh
    rw [hlen_hw] at hx
    refine ⟨.header s.ver2 h, hst, rfl, hl.symm, hl ▸ hx, hh, ?_⟩
    by_cases h1 : 1 < h.length
    · exact sgn_eq_listSigned hh h1 (hs.header_signed hst (hl ▸ h1))
    · rw [hs.header_unsigned hst (by omega)]
      have hd : h.getD 1 0#8 = 0#8 := by
        rw [List.getD_eq_getElem?_getD, List.getElem?_eq_none (by omega)]; rfl
      unfold listSigned
      rw [hd]; simp
  | payload =>
    obtain ⟨l, hl, _, hlt⟩ := hs.payload_index hst
    obtain ⟨hw, hp⟩ := hs.payload_written hst
    obtain ⟨h, p, hold, hpl⟩ := holds _ (by simp [hst]) (by simp [hst]) hw hp
    exact ⟨.payload s.ver2 h p, hst, hold, hpl.symm, by rw [hpl, ← len hold hl]; exact hlt⟩
  | checksumLow =>
    obtain ⟨hw, l, hl, hp⟩ := hs.captured (.inl hst)
    obtain ⟨h, p, hold, hpl⟩ := holds _ (by simp [hst]) (by simp [hst]) hw hp
    exact ⟨.sumLow s.ver2 h p, hst, hold, hpl.trans (len hold hl)⟩
  | checksumHigh =>
    obtain ⟨hw, l, hl, hp⟩ := hs.captured (.inr (.inl hst))
    obtain ⟨h, p, hold, hpl⟩ := holds _ (by simp [hst]) (by simp [hst]) hw hp
    exact ⟨.sumHigh s.ver2 h p _, hst, hold, hpl.trans (len hold hl), rfl⟩
  | signature =>
    obtain ⟨hw, l, hl, hp⟩ := hs.captured (.inr (.inr hst))
    obtain ⟨h, p, hold, hpl⟩ := holds _ (by simp [hst]) (by simp [hst]) hw hp
    obtain ⟨_, hsg, hi⟩ := hs.signature_frame hst
    exact ⟨.sign s.ver2 h p _ _, hst, hold, hpl.trans (len hold hl), rfl, rfl, hi, hold.sgn ▸ hsg⟩

/-- A run of bytes, on phases: the results in order and the phase at the end. -/
def Phase.run : Phase → List Byte → List Result × Phase
  | φ, [] => ([], φ)
  | φ, b :: bs =>
    let (φ', r) := φ.step b
    let (rs, ψ) := φ'.run bs
    (r :: rs, ψ)

/-- A state follows its phase through every byte sequence. -/
theorem feed_inPhase {s : State} {φ : Phase} (hφ : InPhase s φ) (bs : List Byte) :
    ∃ t, feed bs s = .next ((φ.run bs).1, t) ∧ InPhase t (φ.run bs).2 ∧ t.crcAcc = s.crcAcc ∧
      t.input = s.input := by
  induction bs generalizing s φ with
  | nil => exact ⟨s, rfl, hφ, rfl, rfl⟩
  | cons b bs ih =>
    obtain ⟨t, ht, hφ', ho, ha, hi⟩ := step_inPhase hφ b
    obtain ⟨u, hu, hψ, ha', hi'⟩ := ih hφ'
    refine ⟨u, ?_, hψ, ha'.trans ha, hi'.trans hi⟩
    unfold feed at hu ⊢
    rw [List.map_cons, runCommands_cons_eq_next]
    exact ⟨t, _, by rw [byteWord, commandStep_byte]; exact ht, hu, by rw [ho]; rfl⟩

end Sys2Proof.Machine
end

