-- ==== Sys2Proof/Laws/Ports.lean ====
section
/-! SUPPORT. The output port of 30_encoding.md R55, one lemma for each field. -/

namespace Sys2Proof.Machine

@[simp] theorem portOut_res (c : Config) (s : State) : (portOut c s).res = s.out.res := rfl
@[simp] theorem portOut_rejCause (c : Config) (s : State) : (portOut c s).rejCause = s.out.rejCause := rfl
@[simp] theorem portOut_crcOut (c : Config) (s : State) : (portOut c s).crcOut = s.crcAcc := rfl
@[simp] theorem portOut_msgMsgid (c : Config) (s : State) :
    (portOut c s).msgMsgid = s.out.msg.map Message.msgid := rfl
@[simp] theorem portOut_msgSysid (c : Config) (s : State) :
    (portOut c s).msgSysid = s.out.msg.map Message.sysid := rfl
@[simp] theorem portOut_msgCompid (c : Config) (s : State) :
    (portOut c s).msgCompid = s.out.msg.map Message.compid := rfl
@[simp] theorem portOut_msgLen (c : Config) (s : State) :
    (portOut c s).msgLen = s.out.msg.map Message.len := rfl
@[simp] theorem portOut_msgV2 (c : Config) (s : State) :
    (portOut c s).msgV2 = s.out.msg.map fun m => BitVec.ofBool m.v2 := rfl
@[simp] theorem portOut_msgSigned (c : Config) (s : State) :
    (portOut c s).msgSigned = s.out.msg.map fun m => BitVec.ofBool m.signed := rfl

/-- The port has `MAX_PAYLOAD` payload bytes. -/
@[simp] theorem portOut_msgPayload_length (c : Config) (s : State) :
    (portOut c s).msgPayload.length = c.maxPayload := by
  rw [portOut, List.length_map, List.length_range]

/-- Payload byte `i` of the port. -/
theorem portOut_msgPayload_getElem? (c : Config) (s : State) (i : Nat) :
    (portOut c s).msgPayload[i]? =
      if i < c.maxPayload then some (s.out.msg.bind fun m => m.payloadPort i) else none := by
  rw [portOut, List.getElem?_map]
  split
  · next h => rw [List.getElem?_range h, Option.map_some]
  · next h => rw [List.getElem?_eq_none (by rw [List.length_range]; omega), Option.map_none]

/-- Without a Message no payload byte of the port has a value. -/
theorem mem_msgPayload_of_msg_none {c : Config} {s : State} (h : s.out.msg = none) :
    ∀ b ∈ (portOut c s).msgPayload, b = none := by
  intro b hb
  rw [portOut, List.mem_map] at hb
  obtain ⟨i, -, rfl⟩ := hb
  rw [h, Option.bind_none]

/-- A Message comes exactly with FRAME_READY. -/
theorem msg_eq_none_iff (r : Result) : r.msg = none ↔ r.res ≠ 0b11 := by
  cases r <;> simp [Result.msg, Result.res]

end Sys2Proof.Machine
end

