-- ==== Sys2Proof/Tests/Slice0.lean ====
section
/-! SUPPORT. The model's own tests. Expected values are those of 95_test_vectors.md (V-C, V-A, V-U, V-D, V-F) and of
30_encoding.md R59, R76; the words of the decode tests are written out from R59's layout. The last part shows, for
each statement with hypotheses, states and operands that meet them (`witness_<statement>`). -/

namespace Sys2Proof.Tests

open Sys2Proof Sys2Proof.Machine

/-! ### Small states -/

/-- A buffer that holds these bytes from index 0 on. -/
def cells (bs : List Byte) : Memory := (List.range bs.length).zip bs

/-- The state that a step answers. -/
def nextState (o : Host.Outcome State Fault Refusal) : Option State :=
  match o with
  | .next t => some t
  | .fault _ => none
  | .refused _ => none

/-- Reset, but with a parser state. -/
def inState (st : ParserState) : State := { State.reset with st := st }

/-- In the middle of a header. -/
def inHeader (v2 : Bool) (hdr : List Byte) : State :=
  { State.reset with st := .header, ver2 := v2, hidx := BitVec.ofNat 4 hdr.length, hdr := cells hdr }

/-- In the middle of the payload of a version-1 frame of message id 0. -/
def inPayload (len : Byte) (pay : List Byte) : State :=
  { State.reset with
    st := .payload, hidx := 4#4, hdr := cells [len, 0x00#8, 0x02#8, 0xBF#8, 0x00#8]
    pidx := BitVec.ofNat 8 pay.length, pay := cells pay }

/-- The HEARTBEAT payload (30_encoding.md R79). -/
def beat : List Byte := [0x00#8, 0x00#8, 0x00#8, 0x00#8, 0x12#8, 0x08#8, 0x00#8, 0x00#8, 0x03#8]

/-- A frame that awaits its second checksum byte. -/
def atCksumHi (v2 sgn : Bool) (hdr pay : List Byte) (low : Byte) : State :=
  { State.reset with
    st := .checksumHigh, ver2 := v2, sgn := sgn, hidx := if v2 then 8#4 else 4#4, hdr := cells hdr
    pidx := BitVec.ofNat 8 (pay.length - 1), pay := cells pay, crcRx := low.zeroExtend 16 }

/-- V-F1 before its last byte. -/
def vf1 : State :=
  atCksumHi true false [0x09#8, 0x00#8, 0x00#8, 0x00#8, 0x02#8, 0xBF#8, 0x00#8, 0x00#8, 0x00#8] beat 0xB1#8

/-- V-F2 before its last byte. -/
def vf2 : State := atCksumHi false false [0x09#8, 0x00#8, 0x02#8, 0xBF#8, 0x00#8] beat 0x93#8

/-- V-F3 before its second checksum byte. -/
def vf3 : State :=
  atCksumHi true true [0x09#8, 0x01#8, 0x00#8, 0x05#8, 0x01#8, 0x01#8, 0x00#8, 0x00#8, 0x00#8] beat 0xE2#8

/-- V-F3 with `n` signature bytes taken. -/
def vf3Signature (n : BitVec 4) : State := { vf3 with st := .signature, crcRx := 0xEFE2#16, sidx := n }

/-- V-F8 before its last byte. -/
def vf8 : State := atCksumHi false false [0x01#8, 0x00#8, 0x01#8, 0x01#8, 0x01#8] [0xAA#8] 0xF6#8

/-- The Message of V-F1, V-F2 and V-F3, by what they differ in. -/
def beatMessage (sysid compid : Byte) (v2 signed : Bool) : Message :=
  { msgid := 0#24, sysid := sysid, compid := compid, len := 9#8, payload := beat, v2 := v2, signed := signed }

/-- The STATUSTEXT frame of V-F4. -/
def statustext : Frame where
  format := .v1
  seq := 7#8
  sysid := 1#8
  compid := 1#8
  msgid := 253#24
  incompatHigh := 0#7
  compat := 0#8
  payload := [0x06#8, 0x7A#8, 0x6F#8, 0x6F#8, 0x6D#8, 0x5F#8, 0x69#8, 0x6E#8]
  checksum := 0xB855#16
  signature := []

/-! ### Well-formedness: the checks refuse -/

theorem test_wellFormed_refuses_discard_of_sync_v2 : (Instr.decDiscard 0xFD#8).wellFormed Config.hw = false := by
  decide

theorem test_wellFormed_refuses_discard_of_sync_v1 : (Instr.decDiscard 0xFE#8).wellFormed Config.hw = false := by
  decide

theorem test_wellFormed_admits_discard : (Instr.decDiscard 0xFC#8).wellFormed Config.hw = true := by decide

/-! ### Decoding: words written out as `seed`, `din`, `cmd` (30_encoding.md R59) -/

theorem test_decode_nop :
    decode Config.hw .payload 0b0000000000000000_00000000_000#27 = .nop := by decide

theorem test_decode_nop_ignores_the_other_fields :
    decode Config.hw .payload 0b1010101010101010_11110000_000#27 = .nop := by decide

theorem test_decode_decClear :
    decode Config.hw .header 0b0000000000000000_00000000_010#27 = .decClear := by decide

theorem test_decode_crcSeed :
    decode Config.hw .header 0b0001001000110100_11111111_100#27 = .crcSeed 0x1234#16 := by decide

theorem test_decode_crcAcc :
    decode Config.hw .header 0b1111111111111111_00110001_101#27 = .crcAcc 0x31#8 := by decide

theorem test_decode_syncV2 :
    decode Config.hw .awaitSync 0b0000000000000000_11111101_001#27 = .decSyncV2 := by decide

theorem test_decode_syncV1 :
    decode Config.hw .awaitSync 0b0000000000000000_11111110_001#27 = .decSyncV1 := by decide

theorem test_decode_discard :
    decode Config.hw .awaitSync 0b0000000000000000_01010101_001#27 = .decDiscard 0x55#8 := by decide

theorem test_decode_headerByte_of_a_sync_value :
    decode Config.hw .header 0b0000000000000000_11111101_001#27 = .decHeaderByte 0xFD#8 := by decide

theorem test_decode_payloadByte :
    decode Config.hw .payload 0b0000000000000000_11111110_001#27 = .decPayloadByte 0xFE#8 := by decide

theorem test_decode_cksumLo :
    decode Config.hw .checksumLow 0b0000000000000000_10110001_001#27 = .decCksumLo 0xB1#8 := by decide

theorem test_decode_cksumHi :
    decode Config.hw .checksumHigh 0b0000000000000000_01111101_001#27 = .decCksumHi 0x7D#8 := by decide

theorem test_decode_sigByte :
    decode Config.hw .signature 0b0000000000000000_00001101_001#27 = .decSigByte 0x0D#8 := by decide

theorem test_decode_reserved011 :
    decode Config.hw .awaitSync 0b0000000000000000_00000000_011#27 = .reserved011 := by decide

theorem test_decode_reserved110 :
    decode Config.hw .awaitSync 0b0000000000000000_00000000_110#27 = .reserved110 := by decide

theorem test_decode_reserved111 :
    decode Config.hw .awaitSync 0b0000000000000000_00000000_111#27 = .reserved111 := by decide

/-- A number of more than 27 bits is no command word. -/
theorem test_decodeTableWord_range :
    decodeTableWord 32 0x7FFF804 = some (.crcSeed 0xFFFF#16) ∧ decodeTableWord 32 (2 ^ 27) = none := by decide

/-- The table's words run as the first command after reset. -/
theorem test_withFetchWord_runs_the_word :
    nextState (step (State.reset.withFetchWord 32 0x7FFF804)) =
      some { State.reset with crcAcc := some 0xFFFF#16 } := by decide

/-! ### Reset -/

theorem test_reset_buffers_are_canonical :
    Memory.wf State.reset.hdr = true ∧ Memory.wf State.reset.pay = true := by decide

/-! ### The checksum functions (V-C, V-A) -/

theorem test_crcStep_vectors :
    crcStep 0xFF#16 0x1234#16 0x56#8 = 0x4006#16 ∧ crcStep 0xFF#16 0xABCD#16 0xEF#8 = 0x02BB#16 ∧
    crcStep 0xFF#16 0x8000#16 0x80#8 = 0x8488#16 ∧ crcStep 0xFFFF#16 0xABCD#16 0xEF#8 = 0x129B#16 := by decide

theorem test_accumulate_vectors :
    accumulate 0xFF#16 [0x31#8, 0x32#8] 0xFFFF#16 = 0x4D53#16 ∧
    accumulate 0xFF#16 [0x7A#8, 0x6F#8, 0x6F#8, 0x6D#8, 0x5F#8, 0x69#8, 0x6E#8] 0xFFFF#16 = 0x1999#16 := by decide

/-! ### One step of each instruction -/

/-- V-D25. -/
theorem test_nop : nextState (exec .nop vf1) = some vf1 := by decide

/-- V-D23. -/
theorem test_decClear :
    nextState (exec .decClear (inPayload 9#8 [0x00#8])) =
      some { inPayload 9#8 [0x00#8] with st := .awaitSync } := by decide

/-- V-U1. -/
theorem test_crcSeed :
    nextState (exec (.crcSeed 0xFFFF#16) State.reset) = some { State.reset with crcAcc := some 0xFFFF#16 } := by
  decide

/-- V-U2. -/
theorem test_crcAcc :
    nextState (exec (.crcAcc 0x31#8) { State.reset with crcAcc := some 0xFFFF#16 }) =
      some { State.reset with crcAcc := some 0x2F8D#16 } := by decide

/-- V-U5. -/
theorem test_crcAcc_unseeded : exec (.crcAcc 0x31#8) State.reset = .fault .crcUnseeded := rfl

/-- V-D1. -/
theorem test_syncV2 :
    nextState (exec .decSyncV2 { State.reset with sgn := true, hidx := 4#4 }) =
      some { State.reset with st := .header, ver2 := true, out := .needMore } := by decide

/-- V-D2. -/
theorem test_syncV1 :
    nextState (exec .decSyncV1 { State.reset with ver2 := true, sgn := true, hidx := 8#4 }) =
      some { State.reset with st := .header, out := .needMore } := by decide

/-- V-D4. -/
theorem test_discard :
    nextState (exec (.decDiscard 0xFF#8) State.reset) = some { State.reset with out := .needMore } := by decide

/-- V-D6. -/
theorem test_headerByte_signed :
    nextState (exec (.decHeaderByte 0x01#8) (inHeader true [0x09#8])) =
      some { inHeader true [0x09#8, 0x01#8] with sgn := true, out := .needMore } := by decide

/-- V-D9. -/
theorem test_headerByte_empty_payload :
    nextState (exec (.decHeaderByte 0x00#8) (inHeader false [0x00#8, 0x00#8, 0x01#8, 0x01#8])) =
      some { inHeader false [0x00#8, 0x00#8, 0x01#8, 0x01#8, 0x00#8] with
             st := .checksumLow, hidx := 4#4, out := .needMore } := by decide

/-- V-D14. -/
theorem test_payloadByte_last :
    nextState (exec (.decPayloadByte 0xAA#8) (inPayload 1#8 [])) =
      some { inPayload 1#8 [0xAA#8] with st := .checksumLow, pidx := 0#8, out := .needMore } := by decide

/-- V-D16. -/
theorem test_payloadByte_more :
    nextState (exec (.decPayloadByte 0x12#8) (inPayload 9#8 [0x00#8, 0x00#8, 0x00#8])) =
      some { inPayload 9#8 [0x00#8, 0x00#8, 0x00#8, 0x12#8] with out := .needMore } := by decide

/-- V-D17, with both bytes of `crc_rx` set before. -/
theorem test_cksumLo :
    nextState (exec (.decCksumLo 0xB1#8) { inState .checksumLow with crcRx := 0x1234#16 }) =
      some { inState .checksumHigh with crcRx := 0x12B1#16, out := .needMore } := by decide

/-- V-D18. -/
theorem test_cksumHi_signed :
    nextState (exec (.decCksumHi 0xEF#8) vf3) = some { vf3Signature 0#4 with out := .needMore } := by decide

/-- V-F1: the byte `7D` gives FRAME_READY. -/
theorem test_cksumHi_ready :
    nextState (exec (.decCksumHi 0x7D#8) vf1) =
      some { vf1 with crcRx := 0x7DB1#16, st := .awaitSync, out := .frameReady (beatMessage 2#8 191#8 true false) } := by
  decide

/-- V-D21. -/
theorem test_sigByte_more :
    nextState (exec (.decSigByte 0x0C#8) (vf3Signature 11#4)) =
      some { vf3Signature 12#4 with out := .needMore } := by decide

/-- V-D22. -/
theorem test_sigByte_last :
    nextState (exec (.decSigByte 0x0D#8) (vf3Signature 12#4)) =
      some { vf3Signature 12#4 with
             st := .awaitSync, out := .frameReady (beatMessage 1#8 1#8 true true) } := by decide

/-- V-F8: message id 1 has no extra byte. -/
theorem test_finalize_noExtra :
    nextState (exec (.decCksumHi 0xF3#8) vf8) =
      some { vf8 with crcRx := 0xF3F6#16, st := .awaitSync, out := .frameRejected .noExtra } := by decide

/-- V-F9: a wrong high byte. -/
theorem test_finalize_crcMismatch :
    nextState (exec (.decCksumHi 0x7C#8) vf1) =
      some { vf1 with crcRx := 0x7CB1#16, st := .awaitSync, out := .frameRejected .crcMismatch } := by decide

/-- V-D12: a smaller `MAX_PAYLOAD`. -/
theorem test_oversize :
    nextState (headerByte { Config.hw with maxPayload := 100 } 0x65#8 (inHeader true [])) =
      some { inHeader true [] with
             hdr := cells [0x65#8], st := .awaitSync, out := .frameRejected .oversize } := by decide

/-- V-D26. -/
theorem test_reserved :
    exec .reserved011 State.reset = .refused .reservedCmd ∧ exec .reserved110 State.reset = .refused .reservedCmd ∧
    exec .reserved111 State.reset = .refused .reservedCmd := ⟨rfl, rfl, rfl⟩

/-! ### Frames and the assembler -/

/-- V-F1's bytes. -/
theorem test_heartbeat_bytes :
    (heartbeatFrame Config.hw true 0#8 2#8 191#8).bytes Config.hw =
      [0xFD#8, 0x09#8, 0x00#8, 0x00#8, 0x00#8, 0x02#8, 0xBF#8, 0x00#8, 0x00#8, 0x00#8] ++ beat ++
        [0xB1#8, 0x7D#8] := by decide

/-- V-F4's bytes. -/
theorem test_statustext_bytes :
    statustext.bytes Config.hw =
      [0xFE#8, 0x08#8, 0x07#8, 0x01#8, 0x01#8, 0xFD#8, 0x06#8, 0x7A#8, 0x6F#8, 0x6F#8, 0x6D#8, 0x5F#8, 0x69#8,
       0x6E#8, 0x55#8, 0xB8#8] := by decide

/-- `SEED 0xFFFF` of R59, with a comment. -/
theorem test_asm_seed :
    textLineWords ['S', 'E', 'E', 'D', ' ', '0', 'x', 'F', 'F', 'F', 'F', ' ', ';', 's'] =
      .ok [0x7FFF804#27] := by decide

/-- The end of P3's second line: a string, then a byte. -/
theorem test_asm_feed_string :
    textLineWords ['F', 'E', 'E', 'D', ' ', '"', 'z', 'o', '"', ',', '0', 'x', '5', '5'] =
      .ok [0x3D1#27, 0x379#27, 0x2A9#27] := by decide

/-- An immediate that does not fit is an error. -/
theorem test_asm_does_not_fit :
    textLineWords ['B', 'Y', 'T', 'E', ' ', '2', '5', '6'] = .error (.doesNotFit 256) := by decide

/-- `CRC s:` with no bytes is `SEED s`. -/
theorem test_asm_crc_empty :
    textLineWords ['C', 'R', 'C', ' ', '1', ':'] = .ok [0x804#27] := by decide

/-! ### Witnesses: states and operands that meet the statements' hypotheses -/

/-- `SignedFlagAgrees`, decided on the one byte it is about. -/
def signedFlagCheck (s : State) : Bool :=
  match hdrByte s 1 with
  | none => true
  | some b => s.sgn == (s.ver2 && b.getLsbD 0)

/-- `Captured`, decided on the bytes it is about. -/
def capturedCheck (s : State) : Bool :=
  decide (Written s.hdr (hlen Config.hw s.ver2)) &&
    match declaredLen s with
    | none => false
    | some l => decide (Written s.pay l.toNat)

/-- The clause of the invariant on the payload counter, decided. -/
def payloadCheck (s : State) : Bool :=
  match declaredLen s with
  | none => false
  | some l => decide (1 ≤ l.toNat) && decide (s.pidx.toNat < l.toNat)

/-- The invariant's part that each parser state asks for. -/
def phaseCheck (s : State) : Bool :=
  match s.st with
  | .awaitSync => true
  | .header =>
    decide (s.hidx.toNat < hlen Config.hw s.ver2) && decide (Written s.hdr s.hidx.toNat) &&
      (if s.hidx.toNat ≤ 1 then s.sgn == false else signedFlagCheck s)
  | .payload =>
    payloadCheck s && decide (Written s.hdr (hlen Config.hw s.ver2)) && decide (Written s.pay s.pidx.toNat) &&
      signedFlagCheck s
  | .checksumLow => capturedCheck s && signedFlagCheck s
  | .checksumHigh => capturedCheck s && signedFlagCheck s
  | .signature =>
    capturedCheck s && signedFlagCheck s && s.ver2 && s.sgn && decide (s.sidx.toNat < 13)

/-- The invariant, decided on a concrete state. -/
def invCheck (s : State) : Bool :=
  Memory.wf s.hdr && Memory.wf s.pay && decide (Within s.hdr 9) && decide (Within s.pay 255) &&
    decide (s.hidx.toNat ≤ 8) && decide (s.pidx.toNat ≤ 254) && decide (s.sidx.toNat ≤ 12) &&
    (s.st == .awaitSync || s.ver2 || s.sgn == false) && phaseCheck s

theorem signedFlagAgrees_of_check {s : State} (h : signedFlagCheck s = true) : SignedFlagAgrees s := by
  intro b hb
  simpa [signedFlagCheck, hb] using h

theorem captured_of_check {s : State} (h : capturedCheck s = true) : Captured s := by
  simp only [capturedCheck, Bool.and_eq_true, decide_eq_true_eq] at h
  refine ⟨h.1, ?_⟩
  cases hl : declaredLen s with
  | none => simp [hl] at h
  | some l => exact ⟨l, rfl, by simpa [hl] using h.2⟩

theorem payload_of_check {s : State} (h : payloadCheck s = true) :
    ∃ l, declaredLen s = some l ∧ 1 ≤ l.toNat ∧ s.pidx.toNat < l.toNat := by
  cases hl : declaredLen s with
  | none => simp [payloadCheck, hl] at h
  | some l => exact ⟨l, rfl, by simpa [payloadCheck, hl] using h⟩

/-- A state that passes the check meets the invariant. -/
theorem fdInv_of_check {s : State} (h : invCheck s = true) : FdInv s := by
  simp only [invCheck, Bool.and_eq_true, decide_eq_true_eq] at h
  obtain ⟨⟨⟨⟨⟨⟨⟨⟨h1, h2⟩, h3⟩, h4⟩, h5⟩, h6⟩, h7⟩, h8⟩, hp⟩ := h
  have hv1 : s.ver2 = false → s.st ≠ .awaitSync → s.sgn = false := by
    intro hv hs
    simpa [hv, hs] using h8
  cases hst : s.st with
  | awaitSync =>
    refine ⟨h1, h2, h3, h4, h5, h6, h7, ?_, ?_, ?_, ?_, ?_, ?_, ?_, hv1, ?_, ?_⟩ <;> simp [hst]
  | header =>
    simp only [phaseCheck, hst, Bool.and_eq_true, decide_eq_true_eq] at hp
    obtain ⟨⟨ha, hb⟩, hc⟩ := hp
    refine ⟨h1, h2, h3, h4, h5, h6, h7, fun _ => ha, fun _ => hb, fun _ h => by simpa [h] using hc,
      fun _ h => signedFlagAgrees_of_check (by rwa [if_neg (by omega)] at hc), ?_, ?_, ?_, hv1, ?_, ?_⟩ <;>
      simp [hst]
  | payload =>
    simp only [phaseCheck, hst, Bool.and_eq_true, decide_eq_true_eq] at hp
    obtain ⟨⟨⟨ha, hb⟩, hc⟩, hd⟩ := hp
    refine ⟨h1, h2, h3, h4, h5, h6, h7, ?_, ?_, ?_, ?_, fun _ => payload_of_check ha, fun _ => ⟨hb, hc⟩, ?_, hv1,
      ?_, fun _ _ => signedFlagAgrees_of_check hd⟩ <;> simp [hst]
  | checksumLow =>
    simp only [phaseCheck, hst, Bool.and_eq_true] at hp
    refine ⟨h1, h2, h3, h4, h5, h6, h7, ?_, ?_, ?_, ?_, ?_, ?_, ?_, hv1, fun _ => captured_of_check hp.1,
      fun _ _ => signedFlagAgrees_of_check hp.2⟩ <;> simp [hst]
  | checksumHigh =>
    simp only [phaseCheck, hst, Bool.and_eq_true] at hp
    refine ⟨h1, h2, h3, h4, h5, h6, h7, ?_, ?_, ?_, ?_, ?_, ?_, ?_, hv1, fun _ => captured_of_check hp.1,
      fun _ _ => signedFlagAgrees_of_check hp.2⟩ <;> simp [hst]
  | signature =>
    simp only [phaseCheck, hst, Bool.and_eq_true, decide_eq_true_eq] at hp
    obtain ⟨⟨⟨⟨ha, hb⟩, hc⟩, hd⟩, he⟩ := hp
    refine ⟨h1, h2, h3, h4, h5, h6, h7, ?_, ?_, ?_, ?_, ?_, ?_, fun _ => ⟨hc, hd, he⟩, hv1,
      fun _ => captured_of_check ha, fun _ _ => signedFlagAgrees_of_check hb⟩ <;> simp [hst]

/-- A buffer whose first `n` bytes are 0. -/
def zeros : Nat → Memory
  | 0 => []
  | n + 1 => Memory.write (zeros n) n 0#8

/-- A version-1 frame that awaits the last of 255 payload bytes (V-D15). -/
def lastOf255 : State := { inPayload 0xFF#8 [] with pidx := 254#8, pay := zeros 254 }

theorem zeros_facts (n : Nat) :
    Memory.wf (zeros n) = true ∧ Within (zeros n) n ∧ Written (zeros n) n := by
  induction n with
  | zero => exact ⟨rfl, by simp [zeros, Within], by intro i hi; omega⟩
  | succ n ih =>
    refine ⟨Memory.write_wf _ _ _ ih.1, ?_, Written.write_succ ih.2.2 _⟩
    exact Memory.write_within _ _ _ _ (by omega) fun c hc => Nat.lt_succ_of_lt (ih.2.1 c hc)

theorem fdInv_lastOf {pay : Memory} (hw : Memory.wf pay = true) (hi : Within pay 254) (hr : Written pay 254) :
    FdInv { inPayload 0xFF#8 [] with pidx := 254#8, pay := pay } := by
  have f : FdInv (inPayload 0xFF#8 []) := fdInv_of_check (by decide)
  exact ⟨f.hdr_wf, hw, f.hdr_within, fun c hc => Nat.lt_succ_of_lt (hi c hc), f.hidx_bound, Nat.le_refl 254,
    f.sidx_bound, f.header_index, f.header_written, f.header_unsigned, f.header_signed,
    fun _ => ⟨0xFF#8, rfl, (by decide : 1 ≤ (0xFF#8 : Byte).toNat), (by decide : 254 < (0xFF#8 : Byte).toNat)⟩,
    fun h => ⟨(f.payload_written h).1, hr⟩, f.signature_frame, f.v1_unsigned,
    fun h => absurd h (by simp [inPayload]), f.flag_agrees⟩

theorem fdInv_lastOf255 : FdInv lastOf255 :=
  fdInv_lastOf (zeros_facts 254).1 (zeros_facts 254).2.1 (zeros_facts 254).2.2

/-- Every row's instruction is well-formed in a parser state that selects it. -/
theorem witness_DecodeOfEncode :
    ∀ p ∈ [(ParserState.awaitSync, Instr.nop), (.payload, .decClear), (.header, .crcSeed 0xFFFF#16),
        (.signature, .crcAcc 0x31#8), (.awaitSync, .decSyncV2), (.awaitSync, .decSyncV1),
        (.awaitSync, .decDiscard 0xFF#8), (.header, .decHeaderByte 0xFD#8), (.payload, .decPayloadByte 0xFE#8),
        (.checksumLow, .decCksumLo 0#8), (.checksumHigh, .decCksumHi 0#8), (.signature, .decSigByte 0xFF#8),
        (.awaitSync, .reserved011), (.header, .reserved110), (.payload, .reserved111)],
      p.2.wellFormed Config.hw = true ∧ p.2.selectedIn p.1 = true := by decide

/-- A row that covers a word beside the decoder's own answer. -/
theorem witness_DecoderAnswersTheTablesRow :
    (Instr.decDiscard 0x00#8).wellFormed Config.hw = true ∧
    (Instr.decDiscard 0x00#8).selectedIn .awaitSync = true ∧
    (Instr.decDiscard 0x00#8).row.covers 0x0002A9#27 = true ∧
    (Instr.decDiscard 0x00#8).row.covers 0x0007E9#27 = false ∧ Instr.decSyncV2.row.covers 0x7FFFFE9#27 = true := by
  decide

theorem witness_StepRunsTheDecodedInstruction :
    (State.reset.withFetchWord 32 0x18D).input = 0x18D#27 :: [] ∧ State.reset.input = [] := by decide

/-- Both sides of each equivalence: a reserved word, and an accumulation before the seed. -/
theorem witness_OnlyReservedCodesAreRefused :
    commandStep 0x3#27 vf1 = .refused .reservedCmd ∧ commandStep 0x6#27 vf1 = .refused .reservedCmd ∧
    commandStep 0x7FFFFFF#27 vf1 = .refused .reservedCmd ∧ cmdField 0x7FFFFFF#27 = 0b111 := ⟨rfl, rfl, rfl, by decide⟩

theorem witness_OnlyUnseededAccumulationFaults :
    FdInv State.reset ∧ commandStep 0x18D#27 State.reset = .fault .crcUnseeded ∧
    readCrcOut State.reset = .error .crcUnseeded := ⟨fdInv_of_check (by decide), rfl, rfl⟩

theorem witness_OnlyDecByteEmitsAResult :
    (∃ t, commandStep 0x0#27 State.reset = .next t ∧ t.out = .none) ∧
    (∃ t, commandStep 0x1#27 State.reset = .next t ∧ t.out = .needMore) := ⟨⟨_, rfl, rfl⟩, ⟨_, rfl, rfl⟩⟩

theorem witness_CrcAccFoldsOneByteOrFaults :
    ({ State.reset with crcAcc := some 0x1234#16 } : State).crcAcc = some 0x1234#16 ∧
    State.reset.crcAcc = none := by decide

/-- V-C6 and V-C2. -/
theorem witness_EqualByteShiftsTheChecksum :
    (0x34#8 : Byte).toNat = (0x1234#16 : Crc).toNat % 256 ∧ (0xFF#8 : Byte).toNat = (0xFFFF#16 : Crc).toNat % 256 := by
  decide

theorem witness_OnePayloadByteChangeChangesTheChecksum :
    ∃ hk : 4 < beat.length, beat[4] ≠ 0x13#8 := by decide

theorem witness_SeedThenAccumulateRun :
    ∃ t, commandStep (seedWord 0#16) vf1 = .next t ∧ t.crcOut = some 0#16 := ⟨_, rfl, rfl⟩

theorem witness_SeedingIsForGood :
    (∃ t, commandStep 0x0#27 State.reset = .next t ∧ State.reset.crcAcc = none ∧ cmdField 0x0#27 ≠ 0b100) ∧
    (∃ t, commandStep (seedWord 0#16) State.reset = .next t ∧ cmdField (seedWord 0#16) = 0b100) ∧
    (∃ t, commandStep clearWord { State.reset with crcAcc := some 0#16 } = .next t) :=
  ⟨⟨_, rfl, rfl, by decide⟩, ⟨_, rfl, by decide⟩, ⟨_, rfl⟩⟩

theorem witness_ChecksumUnitAndDecoderAreIndependent :
    (∃ t, commandStep (seedWord 1#16) vf1 = .next t) ∧ isCuWord (seedWord 1#16) = true ∧
    vf1.crcAcc = State.reset.crcAcc ∧
    (∃ t, commandStep clearWord vf1 = .next t) ∧ isCuWord clearWord = false ∧
    (∃ rs t, runCommands [seedWord 1#16, byteWord 0xFE#8, accWord 2#8] State.reset = .next (rs, t)) :=
  ⟨⟨_, rfl⟩, by decide, rfl, ⟨_, rfl⟩, by decide, ⟨_, _, rfl⟩⟩

theorem witness_SyncV2StartsAVersion2Frame : State.reset.st = .awaitSync := rfl

theorem witness_SyncV1StartsAVersion1Frame : State.reset.st = .awaitSync := rfl

/-- The bytes next to the sync values. -/
theorem witness_DiscardWritesNoState :
    State.reset.st = .awaitSync ∧ (0xFC#8 : Byte) ≠ 0xFD#8 ∧ (0xFC#8 : Byte) ≠ 0xFE#8 ∧
    (0xFF#8 : Byte) ≠ 0xFD#8 ∧ (0xFF#8 : Byte) ≠ 0xFE#8 := by decide

/-- The first header byte, byte 1 of both versions, and the last byte of a version-2 header with a payload and of a
version-1 header without one. -/
theorem witness_HeaderByteIsStoredAndCounted :
    ∀ s ∈ [inHeader true [], inHeader true [0x09#8], inHeader false [0x09#8],
        inHeader true [0x09#8, 0x00#8, 0x00#8, 0x00#8, 0x02#8, 0xBF#8, 0x00#8, 0x00#8],
        inHeader false [0x00#8, 0x00#8, 0x01#8, 0x01#8]],
      FdInv s ∧ s.st = .header := by
  have h : ∀ s ∈ [inHeader true [], inHeader true [0x09#8], inHeader false [0x09#8],
        inHeader true [0x09#8, 0x00#8, 0x00#8, 0x00#8, 0x02#8, 0xBF#8, 0x00#8, 0x00#8],
        inHeader false [0x00#8, 0x00#8, 0x01#8, 0x01#8]], invCheck s = true ∧ s.st = .header := by decide
  exact fun s hs => ⟨fdInv_of_check (h s hs).1, (h s hs).2⟩

/-- V-D12. -/
theorem witness_OversizeIsRejectedAtOnceAndUnreachableHere :
    (inHeader true []).hidx = 0#4 ∧ 0 < hdrSize { Config.hw with maxPayload := 100 } ∧
    100 < (0x65#8 : Byte).toNat ∧ ∃ t, commandStep 0x0#27 State.reset = .next t :=
  ⟨by decide, by decide, by decide, _, rfl⟩

/-- The only byte of a payload, one of several, and the last of 255 (V-D14 to V-D16). -/
theorem witness_PayloadByteIsStoredAndCounted :
    (FdInv (inPayload 1#8 []) ∧ (inPayload 1#8 []).st = .payload) ∧
    (FdInv (inPayload 9#8 [0#8, 0#8, 0#8]) ∧ (inPayload 9#8 [0#8, 0#8, 0#8]).st = .payload) ∧
    FdInv lastOf255 ∧ lastOf255.st = .payload :=
  ⟨⟨fdInv_of_check (by decide), rfl⟩, ⟨fdInv_of_check (by decide), rfl⟩, fdInv_lastOf255, rfl⟩

theorem witness_ChecksumLowByteIsCaptured : (inState .checksumLow).st = .checksumLow := rfl

/-- A signed, an unsigned version-2 and a version-1 frame. -/
theorem witness_ChecksumHighByteEndsAnUnsignedFrame :
    (FdInv vf3 ∧ vf3.st = .checksumHigh ∧ vf3.ver2 = true ∧ vf3.sgn = true) ∧
    (FdInv vf1 ∧ vf1.st = .checksumHigh ∧ ¬(vf1.ver2 = true ∧ vf1.sgn = true)) ∧
    (FdInv vf2 ∧ vf2.st = .checksumHigh ∧ ¬(vf2.ver2 = true ∧ vf2.sgn = true)) :=
  ⟨⟨fdInv_of_check (by decide), rfl, rfl, rfl⟩, ⟨fdInv_of_check (by decide), rfl, by decide⟩,
    fdInv_of_check (by decide), rfl, by decide⟩

/-- The first, the twelfth and the thirteenth signature byte. -/
theorem witness_SignatureBytesAreCountedAndDiscarded :
    (∀ n ∈ [0#4, 11#4, 12#4], FdInv (vf3Signature n) ∧ (vf3Signature n).st = .signature) ∧
    (vf3Signature 11#4).sidx.toNat + 1 ≠ 13 ∧ (vf3Signature 12#4).sidx.toNat + 1 = 13 := by
  have h : ∀ n ∈ [0#4, 11#4, 12#4], invCheck (vf3Signature n) = true := by decide
  exact ⟨fun n hn => ⟨fdInv_of_check (h n hn), rfl⟩, by decide, by decide⟩

/-- The hypotheses at a frame of message id 0, one of 253 and one of an unknown id; a matching and a wrong checksum. -/
theorem witness_FinalizeDecidesTheFrame :
    (headerOf Config.hw vf2 = some [0x09#8, 0x00#8, 0x02#8, 0xBF#8, 0x00#8] ∧ payloadOf vf2 = some beat ∧
      declaredLen vf2 = some 9#8 ∧ msgidOf vf2 = some 0#24 ∧ sysidOf vf2 = some 2#8 ∧ compidOf vf2 = some 191#8 ∧
      accumulate 0xFF#16 ([0x09#8, 0x00#8, 0x02#8, 0xBF#8, 0x00#8] ++ beat ++ [50#8]) 0xFFFF#16 = 0xE193#16 ∧
      vf2.crcRx ≠ 0xE193#16 ∧ ({ vf2 with crcRx := 0xE193#16 } : State).crcRx = 0xE193#16) ∧
    (headerOf Config.hw vf8 = some [0x01#8, 0x00#8, 0x01#8, 0x01#8, 0x01#8] ∧ payloadOf vf8 = some [0xAA#8] ∧
      declaredLen vf8 = some 1#8 ∧ msgidOf vf8 = some 1#24 ∧ sysidOf vf8 = some 1#8 ∧ compidOf vf8 = some 1#8) ∧
    msgidOf (atCksumHi true false [0x00#8, 0#8, 0#8, 7#8, 1#8, 1#8, 0xFD#8, 0#8, 0#8] [] 0#8) = some 253#24 := by
  decide

theorem witness_HeaderFieldsAreAssembled :
    (headerOf Config.hw vf1 =
      some [0x09#8, 0x00#8, 0x00#8, 0x00#8, 0x02#8, 0xBF#8, 0x00#8, 0x00#8, 0x00#8] ∧ vf1.ver2 = true) ∧
    (headerOf Config.hw vf2 = some [0x09#8, 0x00#8, 0x02#8, 0xBF#8, 0x00#8] ∧ vf2.ver2 = false) := by decide

/-- The ids next to the two that have an extra byte. -/
theorem witness_ExtraByteTable : ∀ m ∈ [1#24, 252#24, 254#24, 0xFD0000#24], m ≠ 0#24 ∧ m ≠ 253#24 := by
  simp

theorem witness_StepKeepsTheInvariant :
    FdInv vf1 ∧ ∃ t, step (vf1.withFetchWord 32 0x3E9) = .next t := ⟨fdInv_of_check (by decide), _, rfl⟩

/-- One state of each parser state. -/
theorem witness_DecByteAlwaysAnswers :
    ∀ s ∈ [State.reset, inHeader true [], inPayload 1#8 [], { vf1 with st := .checksumLow }, vf1, vf3Signature 0#4],
      FdInv s := by
  have h : ∀ s ∈ [State.reset, inHeader true [], inPayload 1#8 [], { vf1 with st := .checksumLow }, vf1,
    vf3Signature 0#4], invCheck s = true := by decide
  exact fun s hs => fdInv_of_check (h s hs)

theorem witness_OnlyDecByteWritesTheBuffers :
    (∃ t, commandStep (byteWord 7#8) (inHeader true []) = .next t ∧
      Memory.read t.hdr 0 ≠ Memory.read (inHeader true []).hdr 0) ∧
    (∃ t, commandStep (byteWord 7#8) (inPayload 9#8 []) = .next t ∧
      Memory.read t.pay 0 ≠ Memory.read (inPayload 9#8 []).pay 0) :=
  ⟨⟨_, rfl, by decide⟩, ⟨_, rfl, by decide⟩⟩

theorem witness_FlagsHaveNoOtherWriters :
    (∃ t, commandStep (byteWord 0xFD#8) State.reset = .next t ∧ t.ver2 ≠ State.reset.ver2) ∧
    (∃ t, commandStep (byteWord 1#8) (inHeader true [0#8]) = .next t ∧ t.sgn ≠ (inHeader true [0#8]).sgn) ∧
    (∃ t, commandStep (byteWord 0xFE#8) { inState .awaitSync with sgn := true } = .next t ∧ t.sgn ≠ true) :=
  ⟨⟨_, rfl, by decide⟩, ⟨_, rfl, by decide⟩, ⟨_, rfl, by decide⟩⟩

theorem witness_PositionAndChecksumHaveNoOtherWriters :
    (∃ t, commandStep clearWord vf1 = .next t ∧ cmdField clearWord ≠ 0b001) ∧
    (∃ t, commandStep (byteWord 0xFD#8) { inState .awaitSync with hidx := 8#4 } = .next t ∧ t.hidx ≠ 8#4) ∧
    (∃ t, commandStep (byteWord 0#8) (inHeader false []) = .next t ∧ t.hidx ≠ 0#4) ∧
    (∃ t, commandStep (byteWord 0#8) { inHeader false [1#8, 0#8, 0#8, 0#8] with pidx := 3#8 } = .next t ∧
      t.pidx ≠ 3#8) ∧
    (∃ t, commandStep (byteWord 0#8) (inPayload 2#8 []) = .next t ∧ t.pidx ≠ 0#8) ∧
    (∃ t, commandStep (byteWord 0xEF#8) { vf3 with sidx := 12#4 } = .next t ∧ t.sidx ≠ 12#4 ∧ t.crcRx ≠ vf3.crcRx) ∧
    (∃ t, commandStep (byteWord 0#8) (vf3Signature 11#4) = .next t ∧ t.sidx ≠ 11#4) ∧
    (∃ t, commandStep (byteWord 1#8) (inState .checksumLow) = .next t ∧ t.crcRx ≠ 0#16) :=
  ⟨⟨_, rfl, by decide⟩, ⟨_, rfl, by decide⟩, ⟨_, rfl, by decide⟩, ⟨_, rfl, by decide⟩, ⟨_, rfl, by decide⟩,
    ⟨_, rfl, by decide, by decide⟩, ⟨_, rfl, by decide⟩, ⟨_, rfl, by decide⟩⟩

theorem witness_RejectionSavesNothing :
    ∃ t, commandStep (byteWord 0x7C#8) vf1 = .next t ∧ t.out = .frameRejected .crcMismatch := ⟨_, rfl, by decide⟩

theorem witness_CausesComeFromFinalize :
    (∃ t, commandStep (byteWord 0xF3#8) vf8 = .next t ∧ t.out = .frameRejected .noExtra) ∧
    (∃ t, commandStep (byteWord 0x0D#8) { vf3Signature 12#4 with crcRx := 0#16 } = .next t ∧
      t.out = .frameRejected .crcMismatch) := ⟨⟨_, rfl, by decide⟩, ⟨_, rfl, by decide⟩⟩

theorem witness_MessagesAreSound :
    ∃ t, commandStep (byteWord 0x7D#8) vf1 = .next t ∧ t.out = .frameReady (beatMessage 2#8 191#8 true false) :=
  ⟨_, rfl, by decide⟩

/-- A step with a Message and one without. -/
theorem witness_MessagePortsCarryTheMessage :
    (∃ t, commandStep (byteWord 0x7D#8) vf1 = .next t ∧ (portOut Config.hw t).res = 0b11) ∧
    (∃ t, commandStep (byteWord 0x7C#8) vf1 = .next t ∧ (portOut Config.hw t).res ≠ 0b11) :=
  ⟨⟨_, rfl, by decide⟩, ⟨_, rfl, by decide⟩⟩

/-- A last byte, a sync value inside a header, and a byte in AwaitSync. -/
theorem witness_AFrameEndsOnlyWithItsResult :
    (∃ t, commandStep (byteWord 0x7D#8) vf1 = .next t ∧ vf1.st ≠ .awaitSync) ∧
    (∃ t, commandStep (byteWord 0xFE#8) (inHeader true [0x09#8]) = .next t ∧ t.st = .header) ∧
    (∃ t, commandStep (byteWord 0#8) State.reset = .next t ∧ State.reset.st = .awaitSync) ∧
    cmdField (byteWord 0x7D#8) = 0b001 ∧ cmdField (byteWord 0xFE#8) = 0b001 :=
  ⟨⟨_, rfl, by decide⟩, ⟨_, rfl, rfl⟩, ⟨_, rfl, rfl⟩, by decide, by decide⟩

/-- Reset, and a state with a whole frame left over. -/
theorem witness_LeftoverStateIsUnobservable :
    State.reset.st = .awaitSync ∧ ({ vf1 with st := .awaitSync } : State).st = .awaitSync ∧
    State.reset.crcAcc = ({ vf1 with st := .awaitSync } : State).crcAcc := ⟨rfl, rfl, rfl⟩

theorem witness_FrameGivesItsResultOnTheLastByte :
    statustext.wellFormed Config.hw = true ∧
    ({ statustext with format := .v2s, signature := List.replicate 13 0#8 } : Frame).wellFormed Config.hw = true ∧
    ({ statustext with format := .v2, payload := [], msgid := 1#24 } : Frame).wellFormed Config.hw = true ∧
    State.reset.st = .awaitSync := by decide

theorem witness_HeartbeatRoundTrip : State.reset.st = .awaitSync := rfl

theorem witness_NoiseWithoutSyncValuesIsHarmless :
    (∀ b ∈ [0x00#8, 0x55#8, 0xAA#8], b ≠ 0xFD#8 ∧ b ≠ 0xFE#8) ∧
    (heartbeatFrame Config.hw true 0#8 2#8 191#8).wellFormed Config.hw = true ∧
    (heartbeatFrame Config.hw true 0#8 2#8 191#8).valid Config.hw = true ∧ State.reset.st = .awaitSync := by decide

/-- P3: V-F2 with payload byte 4 changed, then V-F4. -/
theorem witness_CorruptedPayloadIsRejectedAndTheNextFrameDelivered :
    ∃ hk : 4 < (heartbeatFrame Config.hw false 0#8 2#8 191#8).payload.length,
      (heartbeatFrame Config.hw false 0#8 2#8 191#8).payload[4] ≠ 0x13#8 ∧
      (heartbeatFrame Config.hw false 0#8 2#8 191#8).wellFormed Config.hw = true ∧
      (heartbeatFrame Config.hw false 0#8 2#8 191#8).valid Config.hw = true ∧
      statustext.wellFormed Config.hw = true ∧ statustext.valid Config.hw = true := by decide

theorem witness_AFrameEndsWithin279Bytes :
    State.reset.st = .awaitSync ∧ 279 ≤ (List.replicate 279 (0#8 : Byte)).length :=
  ⟨rfl, by rw [List.length_replicate]⟩

/-- An empty version-1 frame up to its checksum. -/
theorem witness_IncrementalChecksumEqualsTheOneAtFinalize :
    ∃ t r, incrementalRun Config.hw [0xFE#8, 0x00#8, 0x00#8, 0x01#8, 0x01#8, 0x00#8] State.reset 0#16 = .next (t, r) ∧
      t.st = .checksumLow := ⟨_, _, rfl, rfl⟩

/-- The widest immediates that fit and the first that do not. -/
theorem witness_AssemblerEmitsTheCommandWords :
    255 < 256 ∧ 65535 < 65536 ∧ 256 ≤ 256 ∧ 65536 ≤ 65536 ∧ assembleLine (.byte 255) = .ok [0x7F9#27] ∧
    assembleLine (.seed 65536) = .error (.doesNotFit 65536) :=
  ⟨by decide, by decide, by decide, by decide, rfl, rfl⟩

theorem witness_PseudoInstructionsExpand :
    (∀ c ∈ ['z', 'o', 'o', 'm'], c.toNat < 128) ∧
    assembleLine (.feed [.imm 255]) = .ok [0x7F9#27] ∧ assembleLine (.feed [.text ['z']]) = .ok [0x3D1#27] :=
  ⟨by simp, rfl, rfl⟩

end Sys2Proof.Tests
end

section
/-! PROOF. The family of 00_scope.md: what a step takes from the input and runs. -/

namespace Sys2Proof.Machine

/-- The idle word is NOP in every parser state (41_decoder.md R111). -/
theorem decode_idleWord (c : Config) (st : ParserState) : decode c st idleWord = .nop := rfl

theorem presentedWord_of_input_cons {s : State} {w : CmdWord} {rest : List CmdWord} (h : s.input = w :: rest) :
    presentedWord s = w := by
  rw [presentedWord, h]

theorem presentedWord_of_input_nil {s : State} (h : s.input = []) : presentedWord s = idleWord := by
  rw [presentedWord, h]

theorem takeInput_of_input_cons {s : State} {w : CmdWord} {rest : List CmdWord} (h : s.input = w :: rest) :
    takeInput s = { s with input := rest } := by
  rw [takeInput, h, List.tail_cons]

theorem takeInput_of_input_nil {s : State} (h : s.input = []) : takeInput s = s := by
  rw [takeInput, h, List.tail_nil, ← h]

/-- A step at a port with a word is that word's command step, on the state without it. -/
theorem step_of_input_cons {s : State} {w : CmdWord} {rest : List CmdWord} (h : s.input = w :: rest) :
    step s = commandStep w { s with input := rest } := by
  rw [step_eq_commandStep, presentedWord_of_input_cons h, takeInput_of_input_cons h]

/-- A step at an idle port is the idle word's command step, on the unchanged state (log 4). -/
theorem step_of_input_nil {s : State} (h : s.input = []) : step s = commandStep idleWord s := by
  rw [step_eq_commandStep, presentedWord_of_input_nil h, takeInput_of_input_nil h]

/-- Settles O6: the presented word is the head of the input, taking it leaves the tail, and an idle port reads
as NOP. -/
theorem stepRunsTheDecodedInstruction : Obligations.StepRunsTheDecodedInstruction := by
  unfold Obligations.StepRunsTheDecodedInstruction
  constructor
  · intro s w rest h
    rw [step_of_input_cons h, commandStep]
  · intro s h
    rw [step_of_input_nil h, commandStep, decode_idleWord]

end Sys2Proof.Machine
end

section
/-! SUPPORT. What the statements of 10_state.md share: what a command that is no DEC_BYTE leaves alone, the writers
of each register among DEC_BYTE's transitions, and the invariant as bounds on the storage beside a phase. -/

namespace Sys2Proof.Machine

/-! ### A command is a DEC_BYTE or leaves the decoder's elements alone -/

/-- A command that is no DEC_BYTE writes of the FD at most `st`, and that only as DEC_CLEAR (10_state.md R21). -/
theorem commandStep_next_sameFd {w : CmdWord} {s t : State} (h : commandStep w s = .next t)
    (hw : cmdField w ≠ 0b001#3) :
    SameFd { s with st := if cmdField w = 0b010#3 then .awaitSync else s.st } t := by
  rcases commandStep_next.1 h with ⟨hc, rfl⟩ | ⟨hc, _⟩ | ⟨hc, rfl⟩ | ⟨hc, rfl⟩ | ⟨hc, _, _, rfl⟩
  · simp [hc, SameFd]
  · exact absurd hc hw
  · simp [hc, SameFd]
  · simp [hc, SameFd]
  · simp [hc, SameFd]

/-- A DEC_BYTE command that answers a next state takes a transition of its byte. -/
theorem byteStep_of_commandStep {w : CmdWord} {s t : State} (h : commandStep w s = .next t)
    (hw : cmdField w = 0b001#3) : ByteStep (dinField w) s t := by
  rcases commandStep_next.1 h with ⟨hc, _⟩ | ⟨_, hb⟩ | ⟨hc, _⟩ | ⟨hc, _⟩ | ⟨hc, _⟩
  · simp [hw] at hc
  · exact hb
  all_goals simp [hw] at hc

/-! ### The halves of `crc_rx` (10_state.md R30) -/

theorem toNat_withLowByte (crc : Crc) (b : Byte) :
    (withLowByte crc b).toNat = crc.toNat / 256 * 256 + b.toNat := by
  have h : (withLowByte crc b).toNat = (crc.extractLsb' 8 8).toNat <<< 8 ||| b.toNat := BitVec.toNat_append ..
  rw [h, ← Nat.shiftLeft_add_eq_or_of_lt b.isLt, BitVec.extractLsb'_toNat, Nat.shiftLeft_eq,
    Nat.shiftRight_eq_div_pow]
  have := crc.isLt
  omega

theorem toNat_withHighByte (crc : Crc) (b : Byte) :
    (withHighByte crc b).toNat = b.toNat * 256 + crc.toNat % 256 := by
  have h : (withHighByte crc b).toNat = b.toNat <<< 8 ||| (crc.extractLsb' 0 8).toNat := BitVec.toNat_append ..
  rw [h, ← Nat.shiftLeft_add_eq_or_of_lt (crc.extractLsb' 0 8).isLt, BitVec.extractLsb'_toNat, Nat.shiftLeft_eq,
    Nat.shiftRight_zero]

/-- Header byte `i` changes `sgn` only as byte 1 of a version-2 header (41_decoder.md R101). -/
theorem sgnAfter_change {v2 : Bool} {i : Nat} {b : Byte} {g : Bool} (h : sgnAfter Config.hw v2 i b g ≠ g) :
    v2 = true ∧ i = 1 ∧ sgnAfter Config.hw v2 i b g = b.getLsbD 0 := by
  unfold sgnAfter at h ⊢
  split at h
  · next hi => exact ⟨hi.1, hi.2, if_pos hi⟩
  · exact absurd rfl h

/-! ### The writers of each register among DEC_BYTE's transitions

Each proof names the transitions that write the register; every other one keeps it. -/

namespace ByteStep

variable {b : Byte} {s t : State}

theorem ver2_change (h : ByteStep b s t) (hne : t.ver2 ≠ s.ver2) :
    s.st = .awaitSync ∧ ((t.ver2 = true ∧ b = 0xFD#8) ∨ (t.ver2 = false ∧ b = 0xFE#8)) := by
  cases h with
  | syncV2 hst hb => exact ⟨hst, .inl ⟨rfl, hb⟩⟩
  | syncV1 hst hb => exact ⟨hst, .inr ⟨rfl, hb⟩⟩
  | _ => simp at hne

theorem sgn_change (h : ByteStep b s t) (hne : t.sgn ≠ s.sgn) :
    (s.st = .awaitSync ∧ (b = 0xFD#8 ∨ b = 0xFE#8) ∧ t.sgn = false) ∨
    (s.st = .header ∧ s.ver2 = true ∧ s.hidx.toNat = 1 ∧ t.sgn = b.getLsbD 0) := by
  cases h with
  | syncV2 hst hb => exact .inl ⟨hst, .inl hb, rfl⟩
  | syncV1 hst hb => exact .inl ⟨hst, .inr hb, rfl⟩
  | headerMore hst => exact .inr ⟨hst, sgnAfter_change hne⟩
  | headerToPayload _ hst => exact .inr ⟨hst, sgnAfter_change hne⟩
  | headerToChecksum _ hst => exact .inr ⟨hst, sgnAfter_change hne⟩
  | _ => simp at hne

theorem hidx_change (h : ByteStep b s t) (hne : t.hidx ≠ s.hidx) :
    (s.st = .awaitSync ∧ (b = 0xFD#8 ∨ b = 0xFE#8) ∧ t.hidx.toNat = 0) ∨
    (s.st = .header ∧ t.hidx = s.hidx + 1) := by
  cases h with
  | syncV2 hst hb => exact .inl ⟨hst, .inl hb, rfl⟩
  | syncV1 hst hb => exact .inl ⟨hst, .inr hb, rfl⟩
  | headerMore hst => exact .inr ⟨hst, rfl⟩
  | _ => simp at hne

theorem pidx_change (h : ByteStep b s t) (hne : t.pidx ≠ s.pidx) :
    (s.st = .header ∧ s.hidx.toNat + 1 = (if s.ver2 then 9 else 5) ∧ t.pidx.toNat = 0) ∨
    (s.st = .payload ∧ t.pidx = s.pidx + 1) := by
  cases h with
  | headerToPayload _ hst _ he => exact .inl ⟨hst, he, rfl⟩
  | payloadMore _ hst => exact .inr ⟨hst, rfl⟩
  | _ => simp at hne

theorem sidx_change (h : ByteStep b s t) (hne : t.sidx ≠ s.sidx) :
    (s.st = .checksumHigh ∧ s.ver2 = true ∧ s.sgn = true ∧ t.sidx.toNat = 0) ∨
    (s.st = .signature ∧ t.sidx = s.sidx + 1) := by
  cases h with
  | checksumHighSigned hst hv hs => exact .inl ⟨hst, hv, hs, rfl⟩
  | signatureMore hst => exact .inr ⟨hst, rfl⟩
  | _ => simp at hne

theorem crcRx_change (h : ByteStep b s t) (hne : t.crcRx ≠ s.crcRx) :
    (s.st = .checksumLow ∧ t.crcRx.toNat = s.crcRx.toNat / 256 * 256 + b.toNat) ∨
    (s.st = .checksumHigh ∧ t.crcRx.toNat = b.toNat * 256 + s.crcRx.toNat % 256) := by
  cases h with
  | checksumLow hst => exact .inl ⟨hst, toNat_withLowByte _ _⟩
  | checksumHighSigned hst => exact .inr ⟨hst, toNat_withHighByte _ _⟩
  | checksumHighFinal v hst => exact .inr ⟨hst, by rw [endWith_crcRx]; exact toNat_withHighByte _ _⟩
  | _ => simp at hne

end ByteStep

/-! ### A phase reads the decoder's elements only -/

theorem Holds.of_sameFd {s t : State} {v2 : Bool} {h p : List Byte} (hst : SameFd s t) (hs : Holds s v2 h p) :
    Holds t v2 h p := by
  obtain ⟨_, hver, _, hhdr, _, hpay, _, hsgn, _⟩ := hst
  exact ⟨hver ▸ hs.ver2, hhdr ▸ hs.hdr, hs.full, hpay ▸ hs.pay, hsgn ▸ hs.sgn⟩

theorem InPhase.of_sameFd {s t : State} {φ : Phase} (h : SameFd s t) (hφ : InPhase s φ) : InPhase t φ := by
  have holds : ∀ {v2 h p}, Holds s v2 h p → Holds t v2 h p := Holds.of_sameFd h
  obtain ⟨hst, hver, hhidx, hhdr, hpidx, hpay, hcrc, hsgn, hsidx⟩ := h
  cases φ with
  | idle => exact hst.symm.trans hφ
  | header v2 h => unfold InPhase at hφ ⊢; rwa [← hst, ← hver, ← hhidx, ← hhdr, ← hsgn]
  | payload v2 h p =>
    obtain ⟨h1, h2, h3⟩ := hφ
    exact ⟨hst ▸ h1, holds h2, hpidx ▸ h3⟩
  | sumLow v2 h p =>
    obtain ⟨h1, h2, h3⟩ := hφ
    exact ⟨hst ▸ h1, holds h2, h3⟩
  | sumHigh v2 h p lo =>
    obtain ⟨h1, h2, h3, h4⟩ := hφ
    exact ⟨hst ▸ h1, holds h2, h3, hcrc ▸ h4⟩
  | sign v2 h p crc k =>
    obtain ⟨h1, h2, h3, h4, h5⟩ := hφ
    exact ⟨hst ▸ h1, holds h2, h3, hcrc ▸ h4, hsidx ▸ h5⟩

/-- A transition of a byte moves the phase as `Phase.step` says. -/
theorem ByteStep.inPhase {b : Byte} {s t : State} {φ : Phase} (h : ByteStep b s t) (hφ : InPhase s φ) :
    InPhase t (φ.step b).1 := by
  obtain ⟨u, hu, hψ, _⟩ := step_inPhase hφ b
  rw [exec_decodeByte_next.2 h] at hu
  cases hu
  exact hψ

end Sys2Proof.Machine
end

section
/-! PROOF. The invariant of 10_state.md R39: it is bounds on the storage beside a phase, and a step keeps each. -/

namespace Sys2Proof.Machine

/-- The clauses of the invariant that do not look at the parser state: the buffers' form and sizes and the counters'
bounds (10_state.md R29, 20_memory.md R40). -/
structure StorageBounds (s : State) : Prop where
  hdr_wf : Memory.wf s.hdr = true
  pay_wf : Memory.wf s.pay = true
  hdr_within : Within s.hdr 9
  pay_within : Within s.pay 255
  hidx_bound : s.hidx.toNat ≤ 8
  pidx_bound : s.pidx.toNat ≤ 254
  sidx_bound : s.sidx.toNat ≤ 12

theorem FdInv.storageBounds {s : State} (hs : FdInv s) : StorageBounds s := { hs with }

namespace StorageBounds

variable {s t : State}

theorem of_sameFd {x : ParserState} (h : SameFd { s with st := x } t) (hs : StorageBounds s) : StorageBounds t := by
  obtain ⟨_, _, hhidx, hhdr, hpidx, hpay, _, _, hsidx⟩ := h
  exact ⟨hhdr ▸ hs.hdr_wf, hpay ▸ hs.pay_wf, hhdr ▸ hs.hdr_within, hpay ▸ hs.pay_within, hhidx ▸ hs.hidx_bound,
    hpidx ▸ hs.pidx_bound, hsidx ▸ hs.sidx_bound⟩

theorem afterHeaderByte (hs : StorageBounds s) (b : Byte) : StorageBounds (afterHeaderByte b s) :=
  { hs with
    hdr_wf := Memory.write_wf _ _ _ hs.hdr_wf
    hdr_within := Memory.write_within _ _ _ _ (Nat.lt_succ_of_le hs.hidx_bound) hs.hdr_within }

theorem afterPayloadByte (hs : StorageBounds s) (b : Byte) : StorageBounds (afterPayloadByte b s) :=
  { hs with
    pay_wf := Memory.write_wf _ _ _ hs.pay_wf
    pay_within := Memory.write_within _ _ _ _ (Nat.lt_succ_of_le hs.pidx_bound) hs.pay_within }

theorem endWith (hs : StorageBounds s) (v : Except RejCause Message) : StorageBounds (endWith s v) := by
  cases v with
  | error k => exact { hs with }
  | ok m => exact { hs with }

end StorageBounds

/-- A byte keeps the bounds on the storage: a counter is raised only below the end of what it counts. -/
theorem ByteStep.storageBounds {b : Byte} {s t : State} (h : ByteStep b s t) (hs : FdInv s) : StorageBounds t := by
  have hb := hs.storageBounds
  cases h with
  | syncV2 => exact { hb with hidx_bound := Nat.zero_le _ }
  | syncV1 => exact { hb with hidx_bound := Nat.zero_le _ }
  | discard => exact { hb with }
  | headerMore hst hi hne =>
    have hx := hs.header_index hst
    rw [hlen_hw] at hx
    have h9 : (if s.ver2 = true then 9 else 5) ≤ 9 := by split <;> omega
    have hle : (s.hidx + 1).toNat ≤ 8 := by bv_omega
    exact { hb.afterHeaderByte b with hidx_bound := hle }
  | headerToPayload => exact { hb.afterHeaderByte b with pidx_bound := Nat.zero_le _ }
  | headerToChecksum => exact { hb.afterHeaderByte b with }
  | payloadMore l hst hi hl hne =>
    obtain ⟨l', hl', _, hlt⟩ := hs.payload_index hst
    cases hl.symm.trans hl'
    have hle : (s.pidx + 1).toNat ≤ 254 := by have := l.isLt; bv_omega
    exact { hb.afterPayloadByte b with pidx_bound := hle }
  | payloadDone => exact { hb.afterPayloadByte b with }
  | checksumLow => exact { hb with }
  | checksumHighSigned => exact { hb with sidx_bound := Nat.zero_le _ }
  | checksumHighFinal v =>
    exact StorageBounds.endWith (s := { s with crcRx := withHighByte s.crcRx b }) { hb with } v
  | signatureMore hst hne =>
    obtain ⟨_, _, hlt⟩ := hs.signature_frame hst
    have hle : (s.sidx + 1).toNat ≤ 12 := by bv_omega
    exact { hb with sidx_bound := hle }
  | signatureFinal v => exact hb.endWith v

/-! ### What a phase says, by parser state -/

theorem listSigned_of_length_le_one (v2 : Bool) {h : List Byte} (hl : h.length ≤ 1) : listSigned v2 h = false := by
  rw [listSigned, List.getD_eq_default _ _ hl]
  simp

@[simp] theorem listSigned_false (h : List Byte) : listSigned false h = false := rfl

/-- The converse of `sgn_eq_listSigned`. -/
theorem signedFlagAgrees_of_listSigned {s : State} {h : List Byte}
    (hh : Memory.firstBytes s.hdr h.length = some h) (h1 : 1 < h.length) (hs : s.sgn = listSigned s.ver2 h) :
    SignedFlagAgrees s := by
  intro b hb
  cases (read_of_firstBytes hh h1).symm.trans hb
  exact hs

namespace Holds

variable {s : State} {v2 : Bool} {h p : List Byte}

theorem header_written (hs : Holds s v2 h p) : Written s.hdr (hlen Config.hw s.ver2) := by
  rw [hlen_hw, hs.ver2, ← hs.full]
  exact Memory.firstBytes_isSome.1 ⟨_, hs.hdr⟩

theorem payload_written (hs : Holds s v2 h p) : Written s.pay p.length := Memory.firstBytes_isSome.1 ⟨_, hs.pay⟩

theorem five_le_length (hs : Holds s v2 h p) : 5 ≤ h.length := by
  rw [hs.full]; split <;> omega

/-- The declared length of the captured header; its value is `listLen h` by definition. -/
theorem declaredLen_eq (hs : Holds s v2 h p) : declaredLen s = some (h.getD 0 0#8) :=
  read_of_firstBytes hs.hdr (by have := hs.five_le_length; omega)

theorem signedFlagAgrees (hs : Holds s v2 h p) : SignedFlagAgrees s :=
  signedFlagAgrees_of_listSigned hs.hdr (by have := hs.five_le_length; omega) (hs.ver2.symm ▸ hs.sgn)

theorem captured (hs : Holds s v2 h p) (hp : p.length = listLen h) : Captured s :=
  ⟨hs.header_written, _, hs.declaredLen_eq, fun i hi => hs.payload_written i (Nat.lt_of_lt_of_eq hi hp.symm)⟩

end Holds

namespace InPhase

variable {s : State} {φ : Phase}

theorem of_header (hφ : InPhase s φ) (hst : s.st = .header) : ∃ h, φ = .header s.ver2 h := by
  cases φ with
  | header v2 h => obtain ⟨_, rfl, _⟩ := hφ; exact ⟨h, rfl⟩
  | _ => simp [InPhase, hst] at hφ

theorem of_payload (hφ : InPhase s φ) (hst : s.st = .payload) : ∃ v2 h p, φ = .payload v2 h p := by
  cases φ with
  | payload v2 h p => exact ⟨v2, h, p, rfl⟩
  | _ => simp [InPhase, hst] at hφ

theorem of_signature (hφ : InPhase s φ) (hst : s.st = .signature) : ∃ v2 h p crc k, φ = .sign v2 h p crc k := by
  cases φ with
  | sign v2 h p crc k => exact ⟨v2, h, p, crc, k, rfl⟩
  | _ => simp [InPhase, hst] at hφ

/-- After the header the state holds a whole header, and once past Payload the declared payload too. -/
theorem holds (hφ : InPhase s φ) (ha : s.st ≠ .awaitSync) (hh : s.st ≠ .header) :
    ∃ v2 h p, Holds s v2 h p ∧ (s.st ≠ .payload → p.length = listLen h) := by
  cases φ with
  | idle => exact absurd hφ ha
  | header => exact absurd hφ.1 hh
  | payload => obtain ⟨hst, hs, _⟩ := hφ; exact ⟨_, _, _, hs, absurd hst⟩
  | sumLow => obtain ⟨_, hs, hp⟩ := hφ; exact ⟨_, _, _, hs, fun _ => hp⟩
  | sumHigh => obtain ⟨_, hs, hp, _⟩ := hφ; exact ⟨_, _, _, hs, fun _ => hp⟩
  | sign => obtain ⟨_, hs, hp, _⟩ := hφ; exact ⟨_, _, _, hs, fun _ => hp⟩

/-- Outside AwaitSync `sgn` is the flag of the header bytes captured so far. -/
theorem sgn_eq (hφ : InPhase s φ) (ha : s.st ≠ .awaitSync) : ∃ h, s.sgn = listSigned s.ver2 h := by
  by_cases hst : s.st = .header
  · obtain ⟨h, rfl⟩ := hφ.of_header hst
    obtain ⟨_, _, _, _, _, hsg⟩ := hφ
    exact ⟨h, hsg⟩
  · obtain ⟨v2, h, p, hs, _⟩ := hφ.holds ha hst
    exact ⟨h, hs.ver2.symm ▸ hs.sgn⟩

end InPhase

/-- The converse of `FdInv.inPhase`: a state in some phase meets the invariant when its storage keeps its bounds. -/
theorem fdInv_of_inPhase {s : State} {φ : Phase} (hb : StorageBounds s) (hφ : InPhase s φ) : FdInv s :=
  { hb with
    header_index := fun hst => by
      obtain ⟨h, rfl⟩ := hφ.of_header hst
      obtain ⟨_, _, hi, hlt, _⟩ := hφ
      rwa [hlen_hw, hi]
    header_written := fun hst => by
      obtain ⟨h, rfl⟩ := hφ.of_header hst
      obtain ⟨_, _, hi, _, hh, _⟩ := hφ
      exact hi ▸ Memory.firstBytes_isSome.1 ⟨_, hh⟩
    header_unsigned := fun hst hle => by
      obtain ⟨h, rfl⟩ := hφ.of_header hst
      obtain ⟨_, _, hi, _, _, hsg⟩ := hφ
      exact hsg.trans (listSigned_of_length_le_one _ (hi ▸ hle))
    header_signed := fun hst hlt => by
      obtain ⟨h, rfl⟩ := hφ.of_header hst
      obtain ⟨_, _, hi, _, hh, hsg⟩ := hφ
      exact signedFlagAgrees_of_listSigned hh (hi ▸ hlt) hsg
    payload_index := fun hst => by
      obtain ⟨v2, h, p, rfl⟩ := hφ.of_payload hst
      obtain ⟨_, hs, hi, hlt⟩ := hφ
      exact ⟨_, hs.declaredLen_eq, Nat.one_le_of_lt hlt, hi ▸ hlt⟩
    payload_written := fun hst => by
      obtain ⟨v2, h, p, rfl⟩ := hφ.of_payload hst
      obtain ⟨_, hs, hi, _⟩ := hφ
      exact ⟨hs.header_written, hi ▸ hs.payload_written⟩
    signature_frame := fun hst => by
      obtain ⟨v2, h, p, crc, k, rfl⟩ := hφ.of_signature hst
      obtain ⟨_, hs, _, _, hk, hlt, hg⟩ := hφ
      have hv : v2 = true := (Bool.and_eq_true_iff.1 hg).1
      exact ⟨hs.ver2.trans hv, hs.sgn.trans hg, hk ▸ hlt⟩
    v1_unsigned := fun hv ha => by
      obtain ⟨h, hsg⟩ := hφ.sgn_eq ha
      rw [hsg, hv, listSigned_false]
    captured := fun hst => by
      have hne : s.st ≠ .awaitSync ∧ s.st ≠ .header ∧ s.st ≠ .payload := by
        rcases hst with h | h | h <;> simp [h]
      obtain ⟨v2, h, p, hs, hp⟩ := hφ.holds hne.1 hne.2.1
      exact hs.captured (hp hne.2.2)
    flag_agrees := fun ha hh => by
      obtain ⟨v2, h, p, hs, _⟩ := hφ.holds ha hh
      exact hs.signedFlagAgrees }

theorem fdInv_iff {s : State} : FdInv s ↔ StorageBounds s ∧ ∃ φ, InPhase s φ :=
  ⟨fun h => ⟨h.storageBounds, h.inPhase⟩, fun ⟨hb, _, hφ⟩ => fdInv_of_inPhase hb hφ⟩

theorem FdInv.of_sameFd {s t : State} (h : SameFd s t) (hs : FdInv s) : FdInv t := by
  obtain ⟨hb, φ, hφ⟩ := fdInv_iff.1 hs
  exact fdInv_of_inPhase (hb.of_sameFd h) (hφ.of_sameFd h)

/-- Every command that answers a next state keeps the invariant. -/
theorem commandStep_keeps_fdInv {w : CmdWord} {s t : State} (hs : FdInv s) (h : commandStep w s = .next t) :
    FdInv t := by
  obtain ⟨hb, φ, hφ⟩ := fdInv_iff.1 hs
  by_cases hw : cmdField w = 0b001#3
  · have hstep := byteStep_of_commandStep h hw
    exact fdInv_of_inPhase (hstep.storageBounds hs) (hstep.inPhase hφ)
  · have hsame := commandStep_next_sameFd h hw
    by_cases hclear : cmdField w = 0b010#3
    · rw [if_pos hclear] at hsame
      exact fdInv_of_inPhase (φ := .idle) (hb.of_sameFd hsame) hsame.1.symm
    · rw [if_neg hclear] at hsame
      exact hs.of_sameFd hsame

/-- Settles O37: taking the input leaves the decoder's elements, and the presented command keeps the invariant. -/
theorem stepKeepsTheInvariant : Obligations.StepKeepsTheInvariant := by
  unfold Obligations.StepKeepsTheInvariant
  intro s t hs h
  rw [step_eq_commandStep] at h
  exact commandStep_keeps_fdInv (hs.of_sameFd (by simp [SameFd])) h

/-- Settles O38: at reset the buffers are empty, the counters are 0 (log 1) and no frame is in progress. -/
theorem invariantHoldsAtReset : Obligations.InvariantHoldsAtReset := by
  unfold Obligations.InvariantHoldsAtReset
  have hb : StorageBounds State.reset :=
    ⟨rfl, rfl, List.forall_mem_nil _, List.forall_mem_nil _, Nat.zero_le _, Nat.zero_le _, Nat.zero_le _⟩
  exact fdInv_of_inPhase (φ := .idle) hb rfl

end Sys2Proof.Machine
end

section
/-! PROOF. 10_state.md R38: two states of one phase and one `crc_acc` are seen alike by every run. -/

namespace Sys2Proof.Machine

/-- The two states are in one phase, so that they have captured the same bytes of the frame in progress, and hold one
`crc_acc`. Every other element is free. -/
structure Alike (s t : State) : Prop where
  phase : ∃ φ, InPhase s φ ∧ InPhase t φ
  crcAcc : s.crcAcc = t.crcAcc

/-- The two outcomes are one to a consumer now (the same result, fault or refusal), and next states are alike. -/
inductive AlikeOutcomes :
    Host.Outcome State Fault Refusal → Host.Outcome State Fault Refusal → Prop where
  | next {s t : State} (hout : s.out = t.out) (h : Alike s t) : AlikeOutcomes (.next s) (.next t)
  | fault (f : Fault) : AlikeOutcomes (.fault f) (.fault f)
  | refused (r : Refusal) : AlikeOutcomes (.refused r) (.refused r)

theorem InPhase.st_eq {s t : State} {φ : Phase} (hs : InPhase s φ) (ht : InPhase t φ) : s.st = t.st := by
  cases φ with
  | idle => exact Eq.trans hs ht.symm
  | _ => exact hs.1.trans ht.1.symm

namespace Alike

variable {s t : State}

theorem st_eq (h : Alike s t) : s.st = t.st := by
  obtain ⟨φ, hs, ht⟩ := h.phase
  exact hs.st_eq ht

theorem of_sameFd {s' t' : State} (h : Alike s t) (hs : SameFd s s') (ht : SameFd t t')
    (ha : s'.crcAcc = t'.crcAcc) : Alike s' t' := by
  obtain ⟨φ, hφs, hφt⟩ := h.phase
  exact ⟨⟨φ, hφs.of_sameFd hs, hφt.of_sameFd ht⟩, ha⟩

/-- A NONE step that leaves one `crc_acc` in both. -/
theorem emit_none (h : Alike s t) (a : Option Crc) :
    AlikeOutcomes (.next (emit .none { s with crcAcc := a })) (.next (emit .none { t with crcAcc := a })) :=
  .next rfl (h.of_sameFd (by simp [SameFd]) (by simp [SameFd]) rfl)

/-- One byte, in alike states: the phase alone gives the result and the next phase. -/
theorem decByte (h : Alike s t) (b : Byte) :
    AlikeOutcomes (exec (decodeByte Config.hw s.st b) s) (exec (decodeByte Config.hw t.st b) t) := by
  obtain ⟨φ, hφs, hφt⟩ := h.phase
  obtain ⟨s', hs, hψs, hos, has, _⟩ := step_inPhase hφs b
  obtain ⟨t', ht, hψt, hot, hat, _⟩ := step_inPhase hφt b
  rw [hs, ht]
  exact .next (hos.trans hot.symm) ⟨⟨_, hψs, hψt⟩, by rw [has, hat, h.crcAcc]⟩

/-- One command, in alike states. -/
theorem outcomes (h : Alike s t) (w : CmdWord) : AlikeOutcomes (commandStep w s) (commandStep w t) := by
  unfold commandStep
  rw [← h.st_eq]
  rcases decode_cases Config.hw s.st w with ⟨_, hd⟩ | ⟨_, hd⟩ | ⟨_, hd⟩ | ⟨_, hd⟩ | ⟨_, hd⟩ | ⟨_, hd⟩ |
    ⟨_, hd⟩ | ⟨_, hd⟩ <;> rw [hd]
  · exact .next rfl (h.of_sameFd (by simp [SameFd]) (by simp [SameFd]) h.crcAcc)
  · have hb := h.decByte (dinField w)
    rwa [← h.st_eq] at hb
  · exact .next rfl ⟨⟨.idle, rfl, rfl⟩, h.crcAcc⟩
  · exact .refused _
  · exact h.emit_none _
  · simp only [exec, execCrcAcc, ← h.crcAcc]
    cases s.crcAcc with
    | none => exact .fault _
    | some crc => exact h.emit_none _
  · exact .refused _
  · exact .refused _

end Alike

/-- The first result of a run, put before what is seen of the rest. -/
def consSeen (r : Result) : Host.Outcome (List Result) Fault Refusal → Host.Outcome (List Result) Fault Refusal
  | .next rs => .next (r :: rs)
  | .fault f => .fault f
  | .refused q => .refused q

/-- What is seen of a run is what its first command does and what is seen of the rest. -/
theorem seenResults_cons_of_next {w : CmdWord} {ws : List CmdWord} {s s' : State} (h : commandStep w s = .next s') :
    seenResults (runCommands (w :: ws) s) = consSeen s'.out (seenResults (runCommands ws s')) := by
  simp only [runCommands, h]
  cases runCommands ws s' <;> rfl

theorem seenResults_cons_of_fault {w : CmdWord} {ws : List CmdWord} {s : State} {f : Fault}
    (h : commandStep w s = .fault f) : seenResults (runCommands (w :: ws) s) = .fault f := by
  simp only [runCommands, h, seenResults]

theorem seenResults_cons_of_refused {w : CmdWord} {ws : List CmdWord} {s : State} {r : Refusal}
    (h : commandStep w s = .refused r) : seenResults (runCommands (w :: ws) s) = .refused r := by
  simp only [runCommands, h, seenResults]

/-- Every run is seen alike from alike states. -/
theorem Alike.seenResults_eq {s t : State} (h : Alike s t) (ws : List CmdWord) :
    seenResults (runCommands ws s) = seenResults (runCommands ws t) := by
  induction ws generalizing s t with
  | nil => rfl
  | cons w ws ih =>
    have hstep := h.outcomes w
    generalize hs : commandStep w s = os at hstep
    generalize ht : commandStep w t = ot at hstep
    cases hstep with
    | next hout h' => rw [seenResults_cons_of_next hs, seenResults_cons_of_next ht, hout, ih h']
    | fault f => rw [seenResults_cons_of_fault hs, seenResults_cons_of_fault ht]
    | refused r => rw [seenResults_cons_of_refused hs, seenResults_cons_of_refused ht]

/-- Settles O48: two states in AwaitSync are in the phase without a frame, whatever else they hold. -/
theorem leftoverStateIsUnobservable : Obligations.LeftoverStateIsUnobservable := by
  unfold Obligations.LeftoverStateIsUnobservable
  intro ws s t hs ht ha
  exact Alike.seenResults_eq ⟨⟨.idle, hs, ht⟩, ha⟩ ws

end Sys2Proof.Machine
end

section
/-! PROOF. The family of 10_state.md: the writers of the registers, the codes, and the outputs, which are no state. -/

namespace Sys2Proof.Machine

/-- Settles O41: only a DEC_BYTE writes a flag, and of its transitions those of the rules. -/
theorem flagsHaveNoOtherWriters : Obligations.FlagsHaveNoOtherWriters := by
  unfold Obligations.FlagsHaveNoOtherWriters
  intro w s t h
  by_cases hw : cmdField w = 0b001#3
  · have hb := byteStep_of_commandStep h hw
    exact ⟨fun hne => ⟨hw, hb.ver2_change hne⟩, fun hne => ⟨hw, hb.sgn_change hne⟩⟩
  · obtain ⟨_, hver, _, _, _, _, _, hsgn, _⟩ := commandStep_next_sameFd h hw
    exact ⟨absurd hver.symm, absurd hsgn.symm⟩

/-- Settles O42: a command that is no DEC_BYTE keeps every counter and `crc_rx`, and each transition of a DEC_BYTE
that changes one is the rule's. -/
theorem positionAndChecksumHaveNoOtherWriters : Obligations.PositionAndChecksumHaveNoOtherWriters := by
  unfold Obligations.PositionAndChecksumHaveNoOtherWriters
  intro w s t h
  by_cases hw : cmdField w = 0b001#3
  · have hb := byteStep_of_commandStep h hw
    exact ⟨absurd hw, hb.hidx_change, hb.pidx_change, hb.sidx_change, hb.crcRx_change⟩
  · obtain ⟨hst, _, hhidx, _, hpidx, _, hcrc, _, hsidx⟩ := commandStep_next_sameFd h hw
    exact ⟨fun _ => ⟨hhidx.symm, hpidx.symm, hsidx.symm, hcrc.symm, hst.symm⟩, absurd hhidx.symm,
      absurd hpidx.symm, absurd hsidx.symm, absurd hcrc.symm⟩

theorem rejCause_code_ne_zero (k : RejCause) : k.code ≠ 0b00#2 := by
  cases k <;> decide

/-- Settles O5: each result has its code, and a cause's code is never 00. -/
theorem stateAndResultCodes : Obligations.StateAndResultCodes := by
  unfold Obligations.StateAndResultCodes
  refine ⟨⟨rfl, rfl, rfl, rfl, rfl, rfl⟩, fun r => ?_, rfl, rfl, rfl⟩
  cases r with
  | none => simp [Result.res, Result.rejCause, Result.msg]
  | needMore => simp [Result.res, Result.rejCause, Result.msg]
  | frameRejected k => simpa [Result.res, Result.rejCause, Result.msg] using rejCause_code_ne_zero k
  | frameReady m => simp [Result.res, Result.rejCause, Result.msg]

/-- Every instruction overwrites `out` with its own result and reads it nowhere. -/
theorem exec_out_irrelevant (i : Instr) (s : State) (o : Result) : exec i { s with out := o } = exec i s := by
  cases i <;> rfl

/-- Settles O10: neither the decoder nor an instruction reads `out`. -/
theorem noStepReadsPastOutputs : Obligations.NoStepReadsPastOutputs := by
  unfold Obligations.NoStepReadsPastOutputs
  intro w s o
  exact exec_out_irrelevant (decode Config.hw s.st w) s o

end Sys2Proof.Machine
end

section
/-! PROOF. The family of 20_memory.md: the one writer of each capture buffer (R40, R41). -/

namespace Sys2Proof.Machine

/-- A byte that a write inside the buffer changes is the written one. -/
theorem Memory.read_write_change {m : Memory} {a i size : Nat} {v : Byte} (ha : a < size)
    (h : Memory.read (Memory.write m a v) i ≠ Memory.read m i) :
    i = a ∧ i < size ∧ Memory.read (Memory.write m a v) i = some v := by
  by_cases hi : a = i
  · subst hi; exact ⟨rfl, ha, Memory.read_write_self m a v⟩
  · exact absurd (Memory.read_write_of_ne m v hi) h

namespace ByteStep

variable {b : Byte} {s t : State}

/-- Of DEC_BYTE's transitions those in Header write `hdr`, at `hidx` (41_decoder.md R99). -/
theorem hdr_change (h : ByteStep b s t) {i : Nat} (hne : Memory.read t.hdr i ≠ Memory.read s.hdr i) :
    s.st = .header ∧ i = s.hidx.toNat ∧ i < 9 ∧ Memory.read t.hdr i = some b := by
  cases h with
  | headerMore hst hi => exact ⟨hst, Memory.read_write_change hi hne⟩
  | headerToPayload _ hst hi => exact ⟨hst, Memory.read_write_change hi hne⟩
  | headerToChecksum _ hst hi => exact ⟨hst, Memory.read_write_change hi hne⟩
  | _ => simp at hne

/-- Of DEC_BYTE's transitions those in Payload write `pay`, at `pidx` (41_decoder.md R103). -/
theorem pay_change (h : ByteStep b s t) {i : Nat} (hne : Memory.read t.pay i ≠ Memory.read s.pay i) :
    s.st = .payload ∧ i = s.pidx.toNat ∧ i < 255 ∧ Memory.read t.pay i = some b := by
  cases h with
  | payloadMore _ hst hi => exact ⟨hst, Memory.read_write_change hi hne⟩
  | payloadDone _ hst hi => exact ⟨hst, Memory.read_write_change hi hne⟩
  | _ => simp at hne

end ByteStep

/-- Settles O40: a command that is no DEC_BYTE keeps both buffers, and of DEC_BYTE's transitions those of a header
byte and of a payload byte write one byte each. -/
theorem onlyDecByteWritesTheBuffers : Obligations.OnlyDecByteWritesTheBuffers := by
  unfold Obligations.OnlyDecByteWritesTheBuffers
  intro w s t h
  by_cases hw : cmdField w = 0b001#3
  · have hb := byteStep_of_commandStep h hw
    exact ⟨fun _ hne => ⟨hw, hb.hdr_change hne⟩, fun _ hne => ⟨hw, hb.pay_change hne⟩⟩
  · obtain ⟨_, _, _, hhdr, _, hpay, _⟩ := commandStep_next_sameFd h hw
    exact ⟨fun i => absurd (congrArg (Memory.read · i) hhdr.symm),
      fun i => absurd (congrArg (Memory.read · i) hpay.symm)⟩

end Sys2Proof.Machine
end

section
/-! PROOF. 20_memory.md R50: the CU sees of a state `crc_acc` alone, the FD everything but it, and a run splits into
the two. -/

namespace Sys2Proof.Machine

/-- A CU command that answers a next state loads a value that `crc_acc` alone decides: every state with this
`crc_acc` is left with the same value, and with nothing else changed but the outputs. -/
theorem commandStep_cu {w : CmdWord} {s t : State} (h : commandStep w s = .next t) (hcu : isCuWord w = true) :
    ∃ crc, t = emit .none { s with crcAcc := some crc } ∧
      ∀ s' : State, s'.crcAcc = s.crcAcc → commandStep w s' = .next (emit .none { s' with crcAcc := some crc }) := by
  unfold isCuWord at hcu
  rcases commandStep_next.1 h with ⟨hc, _⟩ | ⟨hc, _⟩ | ⟨hc, _⟩ | ⟨hc, rfl⟩ | ⟨hc, crc, ha, rfl⟩
  · simp [hc] at hcu
  · simp [hc] at hcu
  · simp [hc] at hcu
  · exact ⟨_, rfl, fun s' _ => commandStep_next.2 (.inr (.inr (.inr (.inl ⟨hc, rfl⟩))))⟩
  · exact ⟨_, rfl, fun s' hs' => commandStep_next.2 (.inr (.inr (.inr (.inr ⟨hc, crc, hs'.trans ha, rfl⟩))))⟩

/-! ### The FD neither reads nor writes `crc_acc` -/

/-- The decision of FINALIZE ends the frame with `crc_acc` as it is. -/
theorem endWith_withCrcAcc (s : State) (v : Except RejCause Message) (a : Option Crc) :
    endWith { s with crcAcc := a } v = { endWith s v with crcAcc := a } := by
  cases v <;> rfl

namespace ByteStep

variable {b : Byte} {s t : State}

theorem crcAcc_eq (h : ByteStep b s t) : t.crcAcc = s.crcAcc := by
  cases h <;> simp

/-- Each transition is one at every value of `crc_acc`. -/
theorem withCrcAcc (h : ByteStep b s t) (a : Option Crc) :
    ByteStep b { s with crcAcc := a } { t with crcAcc := a } := by
  cases h with
  | syncV2 hst hb => exact .syncV2 hst hb
  | syncV1 hst hb => exact .syncV1 hst hb
  | discard hst h2 h1 => exact .discard hst h2 h1
  | headerMore hst hi hne => exact .headerMore hst hi hne
  | headerToPayload l hst hi he hl hpos => exact .headerToPayload l hst hi he hl hpos
  | headerToChecksum l hst hi he hl hz => exact .headerToChecksum l hst hi he hl hz
  | payloadMore l hst hi hl hne => exact .payloadMore l hst hi hl hne
  | payloadDone l hst hi hl he => exact .payloadDone l hst hi hl he
  | checksumLow hst => exact .checksumLow hst
  | checksumHighSigned hst hv hs => exact .checksumHighSigned hst hv hs
  | checksumHighFinal v hst hu hv => rw [← endWith_withCrcAcc]; exact .checksumHighFinal v hst hu hv
  | signatureMore hst hne => exact .signatureMore hst hne
  | signatureFinal v hst he hv => rw [← endWith_withCrcAcc]; exact .signatureFinal v hst he hv

end ByteStep

/-- A command of the FD, or NOP, keeps `crc_acc` and answers alike at every value of it. -/
theorem commandStep_fd {w : CmdWord} {s t : State} (h : commandStep w s = .next t) (hfd : isCuWord w = false)
    (a : Option Crc) :
    t.crcAcc = s.crcAcc ∧ commandStep w { s with crcAcc := a } = .next { t with crcAcc := a } := by
  unfold isCuWord at hfd
  rcases commandStep_next.1 h with ⟨hc, rfl⟩ | ⟨hc, hb⟩ | ⟨hc, rfl⟩ | ⟨hc, _⟩ | ⟨hc, _⟩
  · exact ⟨rfl, commandStep_next.2 (.inl ⟨hc, rfl⟩)⟩
  · exact ⟨hb.crcAcc_eq, commandStep_next.2 (.inr (.inl ⟨hc, hb.withCrcAcc a⟩))⟩
  · exact ⟨rfl, commandStep_next.2 (.inr (.inr (.inl ⟨hc, rfl⟩)))⟩
  all_goals simp [hc] at hfd

/-! ### The two parts of a run -/

section Parts

variable {w : CmdWord} (ws : List CmdWord) (r : Result) (rs : List Result)

theorem fdWords_cons_of_cu (h : isCuWord w = true) : fdWords (w :: ws) = fdWords ws :=
  List.filter_cons_of_neg (by simp [h])

theorem fdWords_cons_of_fd (h : isCuWord w = false) : fdWords (w :: ws) = w :: fdWords ws :=
  List.filter_cons_of_pos (by simp [h])

theorem cuWords_cons_of_cu (h : isCuWord w = true) : cuWords (w :: ws) = w :: cuWords ws :=
  List.filter_cons_of_pos h

theorem cuWords_cons_of_fd (h : isCuWord w = false) : cuWords (w :: ws) = cuWords ws :=
  List.filter_cons_of_neg (by simp [h])

theorem fdResults_cons_of_cu (h : isCuWord w = true) : fdResults (w :: ws) (r :: rs) = fdResults ws rs :=
  if_pos h

theorem fdResults_cons_of_fd (h : isCuWord w = false) : fdResults (w :: ws) (r :: rs) = r :: fdResults ws rs :=
  if_neg (by simp [h])

end Parts

/-- The FD commands of a run, from the same state with any `crc_acc` and any past outputs: the FD's results, and the
run's last state but for these two. The outputs are free since a CU command before overwrites them. -/
theorem runCommands_fdWords {ws : List CmdWord} {s t : State} {rs : List Result}
    (h : runCommands ws s = .next (rs, t)) (a : Option Crc) (o : Result) :
    ∃ o', runCommands (fdWords ws) { s with crcAcc := a, out := o } =
      .next (fdResults ws rs, { t with crcAcc := a, out := o' }) := by
  induction ws generalizing s rs o with
  | nil => cases h; exact ⟨o, rfl⟩
  | cons w ws ih =>
    obtain ⟨u, qs, hw, hws, rfl⟩ := runCommands_cons_eq_next.1 h
    cases hcu : isCuWord w with
    | true =>
      obtain ⟨crc, rfl, _⟩ := commandStep_cu hw hcu
      rw [fdWords_cons_of_cu ws hcu, fdResults_cons_of_cu ws _ qs hcu]
      exact ih hws o
    | false =>
      obtain ⟨_, hw'⟩ := commandStep_fd hw hcu a
      rw [← noStepReadsPastOutputs w { s with crcAcc := a } o] at hw'
      obtain ⟨o', hrest⟩ := ih hws u.out
      rw [fdWords_cons_of_fd ws hcu, fdResults_cons_of_fd ws _ qs hcu]
      exact ⟨o', runCommands_cons_eq_next.2 ⟨_, _, hw', hrest, rfl⟩⟩

/-- The CU commands of a run, from any state with the same `crc_acc`: the run's last `crc_acc`, and no FD element
changed. -/
theorem runCommands_cuWords {ws : List CmdWord} {s s' t : State} {rs : List Result}
    (h : runCommands ws s = .next (rs, t)) (ha : s'.crcAcc = s.crcAcc) :
    ∃ qs u, runCommands (cuWords ws) s' = .next (qs, u) ∧ u.crcAcc = t.crcAcc ∧ SameFd s' u := by
  induction ws generalizing s s' rs with
  | nil => cases h; exact ⟨[], s', rfl, ha, by simp [SameFd]⟩
  | cons w ws ih =>
    obtain ⟨u, _, hw, hws, rfl⟩ := runCommands_cons_eq_next.1 h
    cases hcu : isCuWord w with
    | true =>
      obtain ⟨crc, rfl, hw'⟩ := commandStep_cu hw hcu
      obtain ⟨qs, v, hrun, hacc, hsame⟩ := ih hws (s' := emit .none { s' with crcAcc := some crc }) rfl
      rw [cuWords_cons_of_cu ws hcu]
      exact ⟨_, v, runCommands_cons_eq_next.2 ⟨_, qs, hw' s' ha, hrun, rfl⟩, hacc, hsame⟩
    | false =>
      obtain ⟨hacc, _⟩ := commandStep_fd hw hcu none
      rw [cuWords_cons_of_fd ws hcu]
      exact ih hws (ha.trans hacc.symm)

/-- Settles O24: a CU command's step is `crc_acc`'s alone, an FD command's is free of it, and by induction on the run
each unit's commands alone do what they do in the run. -/
theorem checksumUnitAndDecoderAreIndependent : Obligations.ChecksumUnitAndDecoderAreIndependent := by
  unfold Obligations.ChecksumUnitAndDecoderAreIndependent
  refine ⟨fun w s t h hcu => ?_, fun w s s' t h hcu ha => ?_, fun w s t a h hfd => commandStep_fd h hfd a,
    fun ws s t rs h => ⟨?_, runCommands_cuWords h rfl⟩⟩
  · obtain ⟨crc, rfl, _⟩ := commandStep_cu h hcu
    simp [SameFd]
  · obtain ⟨crc, rfl, hs'⟩ := commandStep_cu h hcu
    exact ⟨_, hs' s' ha.symm, rfl⟩
  · obtain ⟨o, hrun⟩ := runCommands_fdWords h s.crcAcc s.out
    exact ⟨_, hrun, by simp [SameFd], rfl⟩

end Sys2Proof.Machine
end

section
/-! SUPPORT. The decoder and the rows of the opcode table, by the fields of the word (30_encoding.md R56, R59, R78). -/

namespace Sys2Proof

/-! ### The layout of the word -/

/-- The number of a concatenation. -/
theorem toNat_append_eq_add {n m : Nat} (x : BitVec n) (y : BitVec m) :
    (x ++ y).toNat = 2 ^ m * x.toNat + y.toNat := by
  rw [BitVec.toNat_append, ← Nat.shiftLeft_add_eq_or_of_lt y.isLt, Nat.shiftLeft_eq, Nat.mul_comm]

/-- The number that a packed word writes (R59). -/
theorem toNat_packWord (cmd : BitVec 3) (din : Byte) (seed : Crc) :
    (packWord cmd din seed).toNat = cmd.toNat + 8 * din.toNat + 2048 * seed.toNat := by
  have h : (packWord cmd din seed).toNat = 2 ^ 3 * (seed ++ din).toNat + cmd.toNat := toNat_append_eq_add ..
  rw [h, toNat_append_eq_add]
  omega

/-! ### What the decoder answers on a packed word -/

section

variable (c : Config) (st : ParserState) (din : Byte) (seed : Crc)

@[simp] theorem decode_packWord_nop : decode c st (packWord 0b000#3 din seed) = .nop := by
  simp [decode]

@[simp] theorem decode_packWord_decClear : decode c st (packWord 0b010#3 din seed) = .decClear := by
  simp [decode]

@[simp] theorem decode_packWord_crcSeed : decode c st (packWord 0b100#3 din seed) = .crcSeed seed := by
  simp [decode]

@[simp] theorem decode_packWord_crcAcc : decode c st (packWord 0b101#3 din seed) = .crcAcc din := by
  simp [decode]

@[simp] theorem decode_packWord_reserved011 : decode c st (packWord 0b011#3 din seed) = .reserved011 := by
  simp [decode]

@[simp] theorem decode_packWord_reserved110 : decode c st (packWord 0b110#3 din seed) = .reserved110 := by
  simp [decode]

@[simp] theorem decode_packWord_reserved111 : decode c st (packWord 0b111#3 din seed) = .reserved111 := by
  simp [decode]

@[simp] theorem decodeByte_syncV2 : decodeByte c .awaitSync c.syncV2 = .decSyncV2 := if_pos rfl

end

/-- The second sync byte is another one than the first here, so the first row's priority does not hide it. -/
@[simp] theorem decodeByte_syncV1_hw : decodeByte Config.hw .awaitSync Config.hw.syncV1 = .decSyncV1 := rfl

theorem notSync_iff {c : Config} {din : Byte} : notSync c din = true ↔ din ≠ c.syncV2 ∧ din ≠ c.syncV1 := by
  simp [notSync]

/-- In AwaitSync a byte that is no sync byte is discarded (41_decoder.md R98). -/
theorem decodeByte_of_notSync {c : Config} {din : Byte} (h : notSync c din = true) :
    decodeByte c .awaitSync din = .decDiscard din := by
  obtain ⟨h2, h1⟩ := notSync_iff.1 h
  simp [decodeByte, h2, h1]

/-- Every answer to a byte in AwaitSync. -/
theorem decodeByte_awaitSync (c : Config) (din : Byte) :
    (din = c.syncV2 ∧ decodeByte c .awaitSync din = .decSyncV2) ∨
    (din = c.syncV1 ∧ decodeByte c .awaitSync din = .decSyncV1) ∨
    (notSync c din = true ∧ decodeByte c .awaitSync din = .decDiscard din) := by
  by_cases h2 : din = c.syncV2
  · exact .inl ⟨h2, if_pos h2⟩
  · by_cases h1 : din = c.syncV1
    · exact .inr (.inl ⟨h1, (if_neg h2).trans (if_pos h1)⟩)
    · have hn := notSync_iff.2 ⟨h2, h1⟩
      exact .inr (.inr ⟨hn, decodeByte_of_notSync hn⟩)

/-- A row that names a parser state is selected there only. -/
theorem eq_of_selectedIn {st r : ParserState} {i : Instr} (h : i.selectedIn st = true) (hr : i.rowState = some r) :
    st = r := by
  have hr' : r = st := by simpa [Instr.selectedIn, hr] using h
  exact hr'.symm

/-! ### The decoder's answer is well-formed and selected -/

theorem decodeByte_wellFormed (c : Config) (st : ParserState) (din : Byte) :
    (decodeByte c st din).wellFormed c = true := by
  cases st with
  | awaitSync =>
    rcases decodeByte_awaitSync c din with ⟨_, hd⟩ | ⟨_, hd⟩ | ⟨hn, hd⟩ <;> rw [hd]
    · rfl
    · rfl
    · exact hn
  | header => rfl
  | payload => rfl
  | checksumLow => rfl
  | checksumHigh => rfl
  | signature => rfl

theorem decodeByte_rowState (c : Config) (st : ParserState) (din : Byte) :
    (decodeByte c st din).rowState = some st := by
  cases st with
  | awaitSync =>
    rcases decodeByte_awaitSync c din with ⟨_, hd⟩ | ⟨_, hd⟩ | ⟨_, hd⟩ <;> rw [hd] <;> rfl
  | header => rfl
  | payload => rfl
  | checksumLow => rfl
  | checksumHigh => rfl
  | signature => rfl

theorem decode_wellFormed (c : Config) (st : ParserState) (w : CmdWord) : (decode c st w).wellFormed c = true := by
  rcases decode_cases c st w with ⟨_, hd⟩ | ⟨_, hd⟩ | ⟨_, hd⟩ | ⟨_, hd⟩ | ⟨_, hd⟩ | ⟨_, hd⟩ | ⟨_, hd⟩ |
    ⟨_, hd⟩ <;> rw [hd]
  case inr.inl => exact decodeByte_wellFormed c st _
  all_goals rfl

theorem decode_selectedIn (c : Config) (st : ParserState) (w : CmdWord) : (decode c st w).selectedIn st = true := by
  rcases decode_cases c st w with ⟨_, hd⟩ | ⟨_, hd⟩ | ⟨_, hd⟩ | ⟨_, hd⟩ | ⟨_, hd⟩ | ⟨_, hd⟩ | ⟨_, hd⟩ |
    ⟨_, hd⟩ <;> rw [hd]
  case inr.inl => simp [Instr.selectedIn, decodeByte_rowState]
  all_goals rfl

/-! ### Which packed words a row covers -/

section

variable {cmd : BitVec 3} {din : Byte} {seed : Crc}

/-- A row whose only fixed field is `cmd` covers the words of that command. -/
theorem covers_ofCmd_iff {cmd' : BitVec 3} :
    (Row.ofCmd (packWord cmd' 0#8 0#16)).covers (packWord cmd din seed) = true ↔ cmd = cmd' := by
  simp [Row.covers, Row.ofCmd, packWord_low3, packWord_inj]

/-- A row that fixes `cmd` and `din` covers the words of that command and byte. -/
theorem covers_low11_iff {cmd' : BitVec 3} {din' : Byte} :
    Row.covers { mask := 0x7FF#27, pattern := packWord cmd' din' 0#16, exclude := [] }
      (packWord cmd din seed) = true ↔ cmd = cmd' ∧ din = din' := by
  simp [Row.covers, packWord_low11, packWord_inj]

theorem covers_decSyncV2_iff :
    Instr.decSyncV2.row.covers (packWord cmd din seed) = true ↔ cmd = 0b001#3 ∧ din = Config.hw.syncV2 :=
  covers_low11_iff (cmd' := 0b001#3) (din' := Config.hw.syncV2)

theorem covers_decSyncV1_iff :
    Instr.decSyncV1.row.covers (packWord cmd din seed) = true ↔ cmd = 0b001#3 ∧ din = Config.hw.syncV1 :=
  covers_low11_iff (cmd' := 0b001#3) (din' := Config.hw.syncV1)

/-- The row DISCARD gives way to both SYNC rows, whatever byte its instruction names. -/
theorem covers_decDiscard_iff (b : Byte) :
    (Instr.decDiscard b).row.covers (packWord cmd din seed) = true ↔ cmd = 0b001#3 ∧ notSync Config.hw din = true := by
  have hrow : (Instr.decDiscard b).row =
      { mask := 0x7#27, pattern := packWord 0b001#3 0#8 0#16,
        exclude := [(0x7FF#27, packWord 0b001#3 Config.hw.syncV2 0#16),
                    (0x7FF#27, packWord 0b001#3 Config.hw.syncV1 0#16)] } := rfl
  simp +contextual [hrow, Row.covers, packWord_low3, packWord_low11, packWord_inj, notSync]

end

/-- A DEC_BYTE's row covers its word. -/
theorem decodeByte_row_covers (st : ParserState) (din : Byte) (seed : Crc) :
    (decodeByte Config.hw st din).row.covers (packWord 0b001#3 din seed) = true := by
  have byCmd : (Row.ofCmd 0x1#27).covers (packWord 0b001#3 din seed) = true :=
    covers_ofCmd_iff (cmd' := 0b001#3).2 rfl
  cases st with
  | awaitSync =>
    rcases decodeByte_awaitSync Config.hw din with ⟨h2, hd⟩ | ⟨h1, hd⟩ | ⟨hn, hd⟩ <;> rw [hd]
    · exact covers_decSyncV2_iff.2 ⟨rfl, h2⟩
    · exact covers_decSyncV1_iff.2 ⟨rfl, h1⟩
    · exact (covers_decDiscard_iff din).2 ⟨rfl, hn⟩
  | header => exact byCmd
  | payload => exact byCmd
  | checksumLow => exact byCmd
  | checksumHigh => exact byCmd
  | signature => exact byCmd

theorem exists_packWord (w : CmdWord) : ∃ cmd din seed, w = packWord cmd din seed :=
  ⟨_, _, _, (packWord_fields w).symm⟩

/-- The row of the decoder's answer covers the word. -/
theorem decode_row_covers (st : ParserState) (w : CmdWord) : (decode Config.hw st w).row.covers w = true := by
  obtain ⟨cmd, din, seed, rfl⟩ := exists_packWord w
  have byCmd : ∀ cmd', cmd = cmd' → (Row.ofCmd (packWord cmd' 0#8 0#16)).covers (packWord cmd din seed) = true :=
    fun _ => covers_ofCmd_iff.2
  rcases decode_cases Config.hw st (packWord cmd din seed) with ⟨hc, hd⟩ | ⟨hc, hd⟩ | ⟨hc, hd⟩ | ⟨hc, hd⟩ |
    ⟨hc, hd⟩ | ⟨hc, hd⟩ | ⟨hc, hd⟩ | ⟨hc, hd⟩ <;> rw [hd] <;> rw [cmdField_packWord] at hc
  case inr.inl => rw [hc, dinField_packWord]; exact decodeByte_row_covers st din seed
  all_goals exact byCmd _ hc

/-- A selected row that covers a word is the row of the decoder's answer. -/
theorem row_eq_of_covers {st : ParserState} {w : CmdWord} {j : Instr} (hsel : j.selectedIn st = true)
    (hcov : j.row.covers w = true) : j.row = (decode Config.hw st w).row := by
  obtain ⟨cmd, din, seed, rfl⟩ := exists_packWord w
  have byCmd : ∀ cmd', (Row.ofCmd (packWord cmd' 0#8 0#16)).covers (packWord cmd din seed) = true → cmd = cmd' :=
    fun _ => covers_ofCmd_iff.1
  cases j with
  | nop => cases byCmd 0b000#3 hcov; rw [decode_packWord_nop]
  | decClear => cases byCmd 0b010#3 hcov; rw [decode_packWord_decClear]
  | crcSeed => cases byCmd 0b100#3 hcov; rw [decode_packWord_crcSeed]; rfl
  | crcAcc => cases byCmd 0b101#3 hcov; rw [decode_packWord_crcAcc]; rfl
  | decSyncV2 =>
    cases eq_of_selectedIn hsel rfl
    obtain ⟨rfl, rfl⟩ := covers_decSyncV2_iff.1 hcov
    rw [decode_byte, decodeByte_syncV2]
  | decSyncV1 =>
    cases eq_of_selectedIn hsel rfl
    obtain ⟨rfl, rfl⟩ := covers_decSyncV1_iff.1 hcov
    rw [decode_byte, decodeByte_syncV1_hw]
  | decDiscard b =>
    cases eq_of_selectedIn hsel rfl
    obtain ⟨rfl, hn⟩ := (covers_decDiscard_iff b).1 hcov
    rw [decode_byte, decodeByte_of_notSync hn]; rfl
  | decHeaderByte => cases eq_of_selectedIn hsel rfl; cases byCmd 0b001#3 hcov; rw [decode_byte]; rfl
  | decPayloadByte => cases eq_of_selectedIn hsel rfl; cases byCmd 0b001#3 hcov; rw [decode_byte]; rfl
  | decCksumLo => cases eq_of_selectedIn hsel rfl; cases byCmd 0b001#3 hcov; rw [decode_byte]; rfl
  | decCksumHi => cases eq_of_selectedIn hsel rfl; cases byCmd 0b001#3 hcov; rw [decode_byte]; rfl
  | decSigByte => cases eq_of_selectedIn hsel rfl; cases byCmd 0b001#3 hcov; rw [decode_byte]; rfl
  | reserved011 => cases byCmd 0b011#3 hcov; rw [decode_packWord_reserved011]
  | reserved110 => cases byCmd 0b110#3 hcov; rw [decode_packWord_reserved110]
  | reserved111 => cases byCmd 0b111#3 hcov; rw [decode_packWord_reserved111]

end Sys2Proof
end

section
/-! PROOF. The family of 30_encoding.md: the decoder against the encoder and the opcode table. -/

namespace Sys2Proof

/-- Settles O2: each instruction's word names its command code and its operand; a DEC_BYTE row is selected in its own
parser state only, where its byte selects it again. -/
theorem decodeOfEncode : Obligations.DecodeOfEncode := by
  unfold Obligations.DecodeOfEncode
  intro st i hwf hsel
  cases i with
  | nop => exact decode_packWord_nop ..
  | decClear => exact decode_packWord_decClear ..
  | crcSeed seed => exact decode_packWord_crcSeed ..
  | crcAcc din => exact decode_packWord_crcAcc ..
  | decSyncV2 => cases eq_of_selectedIn hsel rfl; exact (decode_byte ..).trans (decodeByte_syncV2 _)
  | decSyncV1 => cases eq_of_selectedIn hsel rfl; exact (decode_byte ..).trans decodeByte_syncV1_hw
  | decDiscard din => cases eq_of_selectedIn hsel rfl; exact (decode_byte ..).trans (decodeByte_of_notSync hwf)
  | decHeaderByte din => cases eq_of_selectedIn hsel rfl; exact decode_byte ..
  | decPayloadByte din => cases eq_of_selectedIn hsel rfl; exact decode_byte ..
  | decCksumLo din => cases eq_of_selectedIn hsel rfl; exact decode_byte ..
  | decCksumHi din => cases eq_of_selectedIn hsel rfl; exact decode_byte ..
  | decSigByte din => cases eq_of_selectedIn hsel rfl; exact decode_byte ..
  | reserved011 => exact decode_packWord_reserved011 ..
  | reserved110 => exact decode_packWord_reserved110 ..
  | reserved111 => exact decode_packWord_reserved111 ..

/-- Settles O3: the answer is selected and its row covers the word, and a selected row that covers the word fixes its
command code and, in AwaitSync, which side of the sync bytes its byte is on. -/
theorem decoderAnswersTheTablesRow : Obligations.DecoderAnswersTheTablesRow := by
  unfold Obligations.DecoderAnswersTheTablesRow
  intro st w
  exact ⟨decode_wellFormed _ st w, decode_selectedIn _ st w, decode_row_covers st w,
    fun _ _ hsel hcov => row_eq_of_covers hsel hcov⟩

/-- Settles O4: the layout as a sum, the decoder's answer on a packed word without the ignored fields, and O2 on the
decoder's answer, which is well-formed and selected. -/
theorem unnamedFieldsAreIgnored : Obligations.UnnamedFieldsAreIgnored := by
  unfold Obligations.UnnamedFieldsAreIgnored
  refine ⟨toNat_packWord, fun st din din' seed seed' => ?_,
    fun st w => decodeOfEncode st _ (decode_wellFormed _ st w) (decode_selectedIn _ st w)⟩
  simp [decode_byte]

/-- Settles O1: the words of R59 are those of their fields. -/
theorem exampleWordsDecode : Obligations.ExampleWordsDecode := by
  unfold Obligations.ExampleWordsDecode
  decide

end Sys2Proof
end

section
/-! PROOF. The results that a command emits, and the Message (30_encoding.md R57, R63 to R75). -/

namespace Sys2Proof.Machine

/-! ### The result of a DEC_BYTE -/

theorem verdictResult_ne_none (v : Except RejCause Message) : verdictResult v ≠ .none := by
  cases v <;> simp [verdictResult]

theorem verdictResult_ne_needMore (v : Except RejCause Message) : verdictResult v ≠ .needMore := by
  cases v <;> simp [verdictResult]

theorem verdictResult_inj {v v' : Except RejCause Message} (h : verdictResult v = verdictResult v') : v = v' := by
  cases v with
  | error k =>
    cases v' with
    | error k' => cases h; rfl
    | ok m' => cases h
  | ok m =>
    cases v' with
    | error k' => cases h
    | ok m' => cases h; rfl

namespace ByteStep

variable {b : Byte} {s t : State}

/-- A byte's transition emits NEED_MORE, or it ends the frame with the decision of FINALIZE, which reads the checksum
bytes taken so far (41_decoder.md R105, R106). -/
theorem out_cases (h : ByteStep b s t) :
    t.out = .needMore ∨
      ∃ v, finalVerdict Config.hw { s with crcRx := t.crcRx } = some v ∧ t.out = verdictResult v := by
  cases h with
  | checksumHighFinal v _ _ hv => exact .inr ⟨v, by rwa [endWith_crcRx], endWith_out _ v⟩
  | signatureFinal v _ _ hv => exact .inr ⟨v, by rwa [endWith_crcRx], endWith_out s v⟩
  | _ => exact .inl rfl

theorem out_ne_none (h : ByteStep b s t) : t.out ≠ .none := by
  rcases h.out_cases with ho | ⟨v, _, ho⟩ <;> rw [ho]
  · simp
  · exact verdictResult_ne_none v

/-- A result that ends a frame is that of FINALIZE's decision. -/
theorem finalVerdict_of_out {v : Except RejCause Message} (h : ByteStep b s t) (ho : t.out = verdictResult v) :
    finalVerdict Config.hw { s with crcRx := t.crcRx } = some v := by
  rcases h.out_cases with hn | ⟨v', hv, ho'⟩
  · exact absurd (ho.symm.trans hn) (verdictResult_ne_needMore v)
  · rwa [verdictResult_inj (ho.symm.trans ho')]

end ByteStep

/-- A command that is no DEC_BYTE emits NONE (30_encoding.md R57). -/
theorem commandStep_next_out_none {w : CmdWord} {s t : State} (h : commandStep w s = .next t)
    (hw : cmdField w ≠ 0b001#3) : t.out = .none := by
  rcases commandStep_next.1 h with ⟨_, rfl⟩ | ⟨hc, _⟩ | ⟨_, rfl⟩ | ⟨_, rfl⟩ | ⟨_, _, _, rfl⟩
  · rfl
  · exact absurd hc hw
  all_goals rfl

/-- Settles O11: a DEC_BYTE's transition never emits NONE, every other command's always does. -/
theorem onlyDecByteEmitsAResult : Obligations.OnlyDecByteEmitsAResult := by
  unfold Obligations.OnlyDecByteEmitsAResult
  intro w s t h
  constructor
  · exact fun ho hw => (byteStep_of_commandStep h hw).out_ne_none ho
  · exact commandStep_next_out_none h

/-! ### The header's fields -/

/-- The little-endian value of three bytes (20_memory.md R42). -/
theorem toNat_le24 (b0 b1 b2 : Byte) : (le24 b0 b1 b2).toNat = b0.toNat + 256 * b1.toNat + 65536 * b2.toNat := by
  have h : (le24 b0 b1 b2).toNat = 2 ^ 8 * (b2 ++ b1).toNat + b0.toNat := toNat_append_eq_add ..
  rw [h, toNat_append_eq_add]
  omega

section

variable {s : State} {h : List Byte} (hh : headerOf Config.hw s = some h)

include hh

theorem length_headerOf : h.length = if s.ver2 then 9 else 5 := by
  rw [← hlen_hw]; exact (Memory.firstBytes_eq_some.1 hh).1

/-- Byte `i` of the captured header. -/
theorem hdrByte_of_headerOf {i : Nat} (hi : i < h.length) : hdrByte s i = some h[i] :=
  (Memory.firstBytes_eq_some.1 hh).2 i hi

theorem hdrByte_eq_getElem? {i : Nat} (hi : i < h.length) : hdrByte s i = h[i]? := by
  rw [hdrByte_of_headerOf hh hi, List.getElem?_eq_getElem hi]

theorem declaredLen_of_headerOf : declaredLen s = h[0]? :=
  hdrByte_eq_getElem? hh (by rw [length_headerOf hh]; split <;> omega)

end

/-- Settles O35: each field is the header byte that its rule names, or the little-endian number of three. -/
theorem headerFieldsAreAssembled : Obligations.HeaderFieldsAreAssembled := by
  unfold Obligations.HeaderFieldsAreAssembled
  intro s h hh
  refine ⟨declaredLen_of_headerOf hh, fun hv => ?_, fun hv => ?_⟩
  · have hlen : h.length = 9 := by simpa [hv] using length_headerOf hh
    have byte : ∀ i, i < 9 → ∃ b, hdrByte s i = some b ∧ h[i]? = some b := fun i hi =>
      have hi : i < h.length := hlen ▸ hi
      ⟨h[i], hdrByte_of_headerOf hh hi, List.getElem?_eq_getElem hi⟩
    obtain ⟨b0, hr0, h0⟩ := byte 6 (by omega)
    obtain ⟨b1, hr1, h1⟩ := byte 7 (by omega)
    obtain ⟨b2, hr2, h2⟩ := byte 8 (by omega)
    refine ⟨hlen, ?_, ?_, le24 b0 b1 b2, b0, b1, b2, ?_, h0, h1, h2, toNat_le24 b0 b1 b2⟩
    · rw [sysidOf, if_pos hv]; exact hdrByte_eq_getElem? hh (by omega)
    · rw [compidOf, if_pos hv]; exact hdrByte_eq_getElem? hh (by omega)
    · simp [msgidOf, hv, hr0, hr1, hr2]
  · have hlen : h.length = 5 := by simpa [hv] using length_headerOf hh
    have h4 : 4 < h.length := by omega
    refine ⟨hlen, ?_, ?_, h[4].zeroExtend 24, h[4], ?_, List.getElem?_eq_getElem h4, ?_⟩
    · rw [sysidOf, if_neg (by simp [hv])]; exact hdrByte_eq_getElem? hh (by omega)
    · rw [compidOf, if_neg (by simp [hv])]; exact hdrByte_eq_getElem? hh (by omega)
    · simp [msgidOf, hv, hdrByte_of_headerOf hh h4]
    · exact BitVec.toNat_setWidth_of_le (by omega)

/-! ### The extra byte (30_encoding.md R68) -/

theorem extraOf_hw_eq_none_iff {m : MsgId} : extraOf Config.hw m = none ↔ m ≠ 0#24 ∧ m ≠ 253#24 := by
  unfold extraOf
  by_cases h0 : m = 0#24
  · simp [h0, Config.hw]
  · by_cases h1 : m = 253#24
    · simp [h1, Config.hw]
    · simp [h0, h1, Config.hw]

/-- Settles O36: the two entries, and none for every other id. -/
theorem extraByteTable : Obligations.ExtraByteTable := by
  unfold Obligations.ExtraByteTable
  exact ⟨rfl, rfl, fun m h0 h253 => extraOf_hw_eq_none_iff.2 ⟨h0, h253⟩⟩

/-! ### The Message -/

/-- FINALIZE decides for a Message exactly when its id has an extra byte, the checksum under it is the received one,
and the Message is the captured frame's (41_decoder.md R107, R108). -/
theorem finalVerdict_eq_ok {c : Config} {s : State} {msg : Message} :
    finalVerdict c s = some (.ok msg) ↔
      msgidOf s = some msg.msgid ∧ messageOf s msg.msgid = some msg ∧
        ∃ x, extraOf c msg.msgid = some x ∧ frameCrcOf c s x = some s.crcRx := by
  constructor
  · intro h
    obtain ⟨m, hm, ⟨_, hv⟩ | ⟨x, crc, hx, hc, ⟨_, hv⟩ | ⟨rfl, msg', hmsg, hv⟩⟩⟩ := finalVerdict_eq_some.1 h
    · cases hv
    · cases hv
    · cases hv
      obtain ⟨rfl, _⟩ := messageOf_eq_some.1 hmsg
      exact ⟨hm, hmsg, x, hx, hc⟩
  · rintro ⟨hm, hmsg, x, hx, hc⟩
    exact finalVerdict_eq_some.2 ⟨_, hm, .inr ⟨x, _, hx, hc, .inr ⟨rfl, msg, hmsg, rfl⟩⟩⟩

/-- The captured payload has the declared length, and its bytes are those of the buffer. -/
theorem payloadOf_spec {s : State} {p : List Byte} {l : Byte} (hp : payloadOf s = some p)
    (hl : declaredLen s = some l) :
    p.length = l.toNat ∧ ∀ i, i < l.toNat → Memory.read s.pay i = p[i]? := by
  obtain ⟨l', hl', hb⟩ := payloadOf_eq_some.1 hp
  cases hl.symm.trans hl'
  obtain ⟨hlen, hread⟩ := Memory.firstBytes_eq_some.1 hb
  refine ⟨hlen, fun i hi => ?_⟩
  have hi : i < p.length := hlen ▸ hi
  rw [hread i hi, List.getElem?_eq_getElem hi]

/-- A command that emits FRAME_READY is a DEC_BYTE at which FINALIZE decides for its Message. -/
theorem finalVerdict_of_frameReady {w : CmdWord} {s t : State} {m : Message} (h : commandStep w s = .next t)
    (ho : t.out = .frameReady m) : finalVerdict Config.hw { s with crcRx := t.crcRx } = some (.ok m) := by
  by_cases hw : cmdField w = 0b001#3
  · exact (byteStep_of_commandStep h hw).finalVerdict_of_out ho
  · rw [commandStep_next_out_none h hw] at ho
    cases ho

/-- Settles O45: FRAME_READY comes with FINALIZE's decision for a Message, which reads of the step's state what the
state before holds, and the received checksum. -/
theorem messagesAreSound : Obligations.MessagesAreSound := by
  unfold Obligations.MessagesAreSound
  intro w s t m h ho
  obtain ⟨hid, hmsg, x, hx, hcrc⟩ := finalVerdict_eq_ok.1 (finalVerdict_of_frameReady h ho)
  obtain ⟨_, hsys, hcomp, hl, hp, hv, hs⟩ := messageOf_eq_some.1 hmsg
  obtain ⟨hd, p, hhd, hp', he⟩ := frameCrcOf_eq_some.1 hcrc
  cases hp.symm.trans hp'
  have hknown : m.msgid = 0#24 ∨ m.msgid = 253#24 := by
    by_contra hn
    rw [not_or] at hn
    exact absurd (hx.symm.trans (extraOf_hw_eq_none_iff.2 hn)) (by simp)
  exact ⟨hknown, hid, (payloadOf_spec hp hl).1, hl, hp, hsys, hcomp, hv, hs, hd, x, hhd, hx, he.symm⟩

/-- Settles O46: without FRAME_READY there is no Message at the ports; with it the ports carry the Message of O45. -/
theorem messagePortsCarryTheMessage : Obligations.MessagePortsCarryTheMessage := by
  unfold Obligations.MessagePortsCarryTheMessage
  intro w s t h
  obtain ⟨_, hcodes, _⟩ := stateAndResultCodes
  obtain ⟨_, _, _, hready, _⟩ := hcodes t.out
  refine ⟨portOut_crcOut _ t, portOut_msgPayload_length _ t, fun hres => ?_, fun hres => ?_⟩
  · have hm : t.out.msg = none := (msg_eq_none_iff t.out).2 hres
    exact ⟨by simp [hm], by simp [hm], by simp [hm], by simp [hm], by simp [hm], by simp [hm],
      mem_msgPayload_of_msg_none hm⟩
  · obtain ⟨m, ho⟩ : ∃ m, t.out = .frameReady m := hready.1 hres
    have hm : t.out.msg = some m := by rw [ho]; rfl
    obtain ⟨_, hid, hlen, hl, hp, hsys, hcomp, hv, hs, _⟩ := messagesAreSound w s t m h ho
    have hport : ∀ i, i < 255 → (portOut Config.hw t).msgPayload[i]? = some m.payload[i]? := fun i hi => by
      rw [portOut_msgPayload_getElem?, maxPayload_hw, if_pos hi, hm]; rfl
    refine ⟨m.len, hl, by simp [hm], by simp [hm, hid], by simp [hm, hsys], by simp [hm, hcomp], by simp [hm, hv],
      by simp [hm, hs], fun i => ⟨fun hi => ?_, fun hge hi => ?_⟩⟩
    · rw [(payloadOf_spec hp hl).2 i hi]
      exact hport i (by have := m.len.isLt; omega)
    · rw [hport i hi, List.getElem?_eq_none (by omega)]

end Sys2Proof.Machine
end

section
/-! PROOF. The assembler's lines and pseudo-instructions (30_encoding.md R76, R77). -/

namespace Sys2Proof.Machine

/-! ### Immediates and strings as bytes -/

theorem imm8_of_lt {v : Nat} (h : v < 256) : imm8 v = .ok (BitVec.ofNat 8 v) := if_pos h

theorem imm8_of_le {v : Nat} (h : 256 ≤ v) : imm8 v = .error (.doesNotFit v) := if_neg (Nat.not_lt.2 h)

theorem imm16_of_lt {v : Nat} (h : v < 65536) : imm16 v = .ok (BitVec.ofNat 16 v) := if_pos h

theorem imm16_of_le {v : Nat} (h : 65536 ≤ v) : imm16 v = .error (.doesNotFit v) := if_neg (Nat.not_lt.2 h)

/-- The immediate of a byte's own number is the byte. -/
@[simp] theorem imm8_toNat (b : Byte) : imm8 b.toNat = .ok b := by
  rw [imm8_of_lt b.isLt, BitVec.ofNat_toNat, BitVec.setWidth_eq]

@[simp] theorem imm16_toNat (v : Crc) : imm16 v.toNat = .ok v := by
  rw [imm16_of_lt v.isLt, BitVec.ofNat_toNat, BitVec.setWidth_eq]

theorem imm8s_map_toNat (bs : List Byte) : imm8s (bs.map BitVec.toNat) = .ok bs := by
  induction bs with
  | nil => rfl
  | cons b bs ih => simp [imm8s, ih]

theorem asciiBytes_eq_ok {cs : List Char} (h : ∀ c ∈ cs, c.toNat < 128) :
    asciiBytes cs = .ok (cs.map fun c => BitVec.ofNat 8 c.toNat) := by
  induction cs with
  | nil => rfl
  | cons c cs ih =>
    obtain ⟨hc, hcs⟩ := List.forall_mem_cons.1 h
    simp [asciiBytes, hc, ih hcs]

theorem feedBytes_imm (bs : List Byte) : feedBytes (bs.map fun b => .imm b.toNat) = .ok bs := by
  induction bs with
  | nil => rfl
  | cons b bs ih => simp [feedBytes, FeedItem.bytes, imm8s, ih]

theorem feedBytes_text {cs : List Char} (h : ∀ c ∈ cs, c.toNat < 128) :
    feedBytes [.text cs] = .ok (cs.map fun c => BitVec.ofNat 8 c.toNat) := by
  simp [feedBytes, FeedItem.bytes, asciiBytes_eq_ok h]

/-- What the items of a longer list stand for: the first one's bytes, then the others'. -/
theorem feedBytes_cons_eq_ok {x : FeedItem} {xs : List FeedItem} {bs : List Byte} :
    feedBytes (x :: xs) = .ok bs ↔ ∃ b r, x.bytes = .ok b ∧ feedBytes xs = .ok r ∧ bs = b ++ r := by
  rw [feedBytes]
  cases x.bytes with
  | error e => simp
  | ok b => cases feedBytes xs <;> simp [eq_comm]

theorem feedBytes_append {xs ys : List FeedItem} {bs cs : List Byte} (hx : feedBytes xs = .ok bs)
    (hy : feedBytes ys = .ok cs) : feedBytes (xs ++ ys) = .ok (bs ++ cs) := by
  induction xs generalizing bs with
  | nil => cases hx; exact hy
  | cons x xs ih =>
    obtain ⟨b, r, hb, hr, rfl⟩ := feedBytes_cons_eq_ok.1 hx
    exact feedBytes_cons_eq_ok.2 ⟨b, r ++ cs, hb, ih hr, List.append_assoc ..⟩

/-! ### The words of a line and of a program -/

theorem assembleLine_byte {v : Nat} {b : Byte} (h : imm8 v = .ok b) : assembleLine (.byte v) = .ok [byteWord b] := by
  rw [assembleLine, h]; rfl

theorem assembleLine_acc {v : Nat} {b : Byte} (h : imm8 v = .ok b) : assembleLine (.acc v) = .ok [accWord b] := by
  rw [assembleLine, h]; rfl

theorem assembleLine_seed {v : Nat} {x : Crc} (h : imm16 v = .ok x) : assembleLine (.seed v) = .ok [seedWord x] := by
  rw [assembleLine, h]; rfl

theorem assembleLine_feed {items : List FeedItem} {bs : List Byte} (h : feedBytes items = .ok bs) :
    assembleLine (.feed items) = .ok (bs.map byteWord) := by
  rw [assembleLine, h]; rfl

/-- FEED assembles exactly when its items stand for bytes, to a BYTE word of each. -/
theorem assembleLine_feed_eq_ok {items : List FeedItem} {ws : List CmdWord} :
    assembleLine (.feed items) = .ok ws ↔ ∃ bs, feedBytes items = .ok bs ∧ ws = bs.map byteWord := by
  rw [assembleLine]
  cases feedBytes items <;> simp [Except.map, eq_comm]

theorem assembleLine_crc (seed : Crc) (bs : List Byte) :
    assembleLine (.crc seed.toNat (bs.map BitVec.toNat)) = .ok (seedWord seed :: bs.map accWord) := by
  simp [assembleLine, imm8s_map_toNat, Except.map]

theorem assemble_cons {l : AsmLine} {ls : List AsmLine} {ws rest : List CmdWord} (hl : assembleLine l = .ok ws)
    (hls : assemble ls = .ok rest) : assemble (l :: ls) = .ok (ws ++ rest) := by
  simp [assemble, hl, hls]

/-- A program of lines of one word each. -/
theorem assemble_map {α : Type} {line : α → AsmLine} {word : α → CmdWord} {xs : List α}
    (h : ∀ x ∈ xs, assembleLine (line x) = .ok [word x]) : assemble (xs.map line) = .ok (xs.map word) := by
  induction xs with
  | nil => rfl
  | cons x xs ih =>
    obtain ⟨hx, hxs⟩ := List.forall_mem_cons.1 h
    exact assemble_cons hx (ih hxs)

/-! ### The run of `CRC s:` -/

theorem commandStep_seedWord (v : Crc) (s : State) :
    commandStep (seedWord v) s = .next (emit .none { s with crcAcc := some v }) := by
  rw [commandStep, seedWord, decode_packWord_crcSeed]; rfl

theorem commandStep_accWord {crc : Crc} {s : State} (b : Byte) (h : s.crcAcc = some crc) :
    commandStep (accWord b) s = .next (emit .none { s with crcAcc := some (crcStep 0xFF#16 crc b) }) := by
  rw [commandStep, accWord, decode_packWord_crcAcc, exec, execCrcAcc, h]; rfl

/-- ACC of each byte, from a state whose `crc_acc` holds a value: every result is NONE and the bytes are accumulated
onto it, with nothing else changed but the outputs. -/
theorem runCommands_accWords {crc : Crc} {s : State} (bs : List Byte) (h : s.crcAcc = some crc) :
    ∃ o, runCommands (bs.map accWord) s = .next (List.replicate bs.length .none,
      { s with crcAcc := some (accumulate 0xFF#16 bs crc), out := o }) := by
  induction bs generalizing s crc with
  | nil => exact ⟨s.out, by rw [accumulate, ← h]; rfl⟩
  | cons b bs ih =>
    obtain ⟨o, hrun⟩ := ih (s := emit .none { s with crcAcc := some (crcStep 0xFF#16 crc b) }) rfl
    exact ⟨o, runCommands_cons_eq_next.2 ⟨_, _, commandStep_accWord b h, hrun, rfl⟩⟩

/-- The expansion of `CRC s:` completes from every state (R77, 40_crc.md R88). -/
theorem runCommands_seed_accWords (s : State) (seed : Crc) (bs : List Byte) :
    ∃ o, runCommands (seedWord seed :: bs.map accWord) s = .next (List.replicate (bs.length + 1) .none,
      { s with crcAcc := some (accumulate 0xFF#16 bs seed), out := o }) := by
  obtain ⟨o, hrun⟩ := runCommands_accWords (s := emit .none { s with crcAcc := some seed }) bs rfl
  exact ⟨o, runCommands_cons_eq_next.2 ⟨_, _, commandStep_seedWord seed s, hrun, rfl⟩⟩

/-- Settles O57: FEED is BYTE of each byte its items stand for, and `CRC s:` is SEED and then ACC of each byte, whose
run folds the bytes one by one. -/
theorem pseudoInstructionsExpand : Obligations.PseudoInstructionsExpand := by
  unfold Obligations.PseudoInstructionsExpand
  refine ⟨fun bs => ?_, fun cs h => ?_, fun xs ys us vs hx hy => ?_, fun seed bs => ⟨?_, _, assembleLine_crc seed bs,
    fun s => ?_⟩⟩
  · rw [assembleLine_feed (feedBytes_imm bs), assemble_map fun b _ => assembleLine_byte (imm8_toNat b)]
  · have byte : ∀ c ∈ cs, assembleLine (.byte c.toNat) = .ok [byteWord (BitVec.ofNat 8 c.toNat)] := fun c hc =>
      assembleLine_byte (imm8_of_lt (by have := h c hc; omega))
    rw [assembleLine_feed (feedBytes_text h), assemble_map byte, List.map_map]; rfl
  · obtain ⟨bs, hbs, rfl⟩ := assembleLine_feed_eq_ok.1 hx
    obtain ⟨bs', hbs', rfl⟩ := assembleLine_feed_eq_ok.1 hy
    rw [assembleLine_feed (feedBytes_append hbs hbs'), List.map_append]
  · have accs := assemble_map (xs := bs) fun b _ => assembleLine_acc (imm8_toNat b)
    rw [assembleLine_crc, assemble_cons (assembleLine_seed (imm16_toNat seed)) accs]; rfl
  · obtain ⟨o, hrun⟩ := runCommands_seed_accWords s seed bs
    exact ⟨_, _, hrun, rfl⟩

/-! ### The words as numbers -/

theorem toNat_byteWord (b : Byte) : (byteWord b).toNat = b.toNat * 8 + 1 := by
  simp only [byteWord, toNat_packWord, BitVec.toNat_ofNat]; omega

theorem toNat_accWord (b : Byte) : (accWord b).toNat = b.toNat * 8 + 5 := by
  simp only [accWord, toNat_packWord, BitVec.toNat_ofNat]; omega

theorem toNat_seedWord (v : Crc) : (seedWord v).toNat = v.toNat * 2048 + 4 := by
  simp only [seedWord, toNat_packWord, BitVec.toNat_ofNat]; omega

/-- Settles O56: the line's word is the packed word of its immediate, and an immediate that does not fit is the
line's error. -/
theorem assemblerEmitsTheCommandWords : Obligations.AssemblerEmitsTheCommandWords := by
  unfold Obligations.AssemblerEmitsTheCommandWords
  refine ⟨by decide, by decide, fun v hv => ⟨⟨_, assembleLine_byte (imm8_of_lt hv), ?_⟩,
    ⟨_, assembleLine_acc (imm8_of_lt hv), ?_⟩⟩, fun v hv => ⟨_, assembleLine_seed (imm16_of_lt hv), ?_⟩,
    fun v hv => ⟨?_, ?_⟩, fun v hv => ?_⟩
  · rw [toNat_byteWord, BitVec.toNat_ofNat, Nat.mod_eq_of_lt hv]
  · rw [toNat_accWord, BitVec.toNat_ofNat, Nat.mod_eq_of_lt hv]
  · rw [toNat_seedWord, BitVec.toNat_ofNat, Nat.mod_eq_of_lt hv]
  · rw [assembleLine, imm8_of_le hv]; rfl
  · rw [assembleLine, imm8_of_le hv]; rfl
  · rw [assembleLine, imm16_of_le hv]; rfl

end Sys2Proof.Machine
end

section
/-! PROOF. The checksum unit (40_crc.md). A step is the shifted checksum XOR a term of one byte, the byte fed in XOR
the checksum's low byte; what the family says of `crc_step` comes from what it says of that term. -/

namespace Sys2Proof.Machine

/-! ### The term that `crc_step` adds to the shifted checksum -/

/-- The part of R80's formula that depends on `t1` alone. -/
def tmpTerm (mask : Crc) (t1 : Byte) : Crc :=
  let t : Crc := (t1.zeroExtend 16 ^^^ (t1.zeroExtend 16 <<< 4)) &&& mask
  (t <<< 8) ^^^ (t <<< 3) ^^^ (t >>> 4)

/-- `t1` from the high byte of its term under the rule's mask. That byte is `t XOR (t >> 5)`, and `t` is
`t1 XOR (t1 << 4)`; in 8 bits each of the two maps undoes itself. -/
def tmpOfTermHigh (high : Byte) : Byte :=
  let t : Byte := high ^^^ (high >>> 5)
  t ^^^ (t <<< 4)

theorem crcStep_eq_xor_tmpTerm (mask crc : Crc) (b : Byte) :
    crcStep mask crc b = (crc >>> 8) ^^^ tmpTerm mask (b ^^^ crc.extractLsb' 0 8) := by
  simp only [crcStep, tmpTerm, BitVec.xor_assoc]

theorem tmpTerm_zero (mask : Crc) : tmpTerm mask 0#8 = 0#16 := by simp [tmpTerm]

theorem tmpOfTermHigh_tmpTerm :
    ∀ t1 : Byte, tmpOfTermHigh ((tmpTerm 0xFF#16 t1 >>> 8).extractLsb' 0 8) = t1 := by decide

/-- The eight rounds from a byte are the term of that byte (R85). -/
theorem crcTable_eq_tmpTerm : ∀ t1 : Byte, crcTable t1 = tmpTerm 0xFF#16 t1 := by decide

/-- Without the mask the term is another one exactly when `t1 << 4` exceeds 8 bits (R90). -/
theorem tmpTerm_unmasked_eq_iff :
    ∀ t1 : Byte, tmpTerm 0xFFFF#16 t1 = tmpTerm 0x00FF#16 t1 ↔ t1.toNat < 0x10 := by decide

/-! ### Low bytes and truncation as numbers -/

theorem toNat_lowByte (crc : Crc) : (crc.extractLsb' 0 8).toNat = crc.toNat % 256 := by
  rw [BitVec.extractLsb'_toNat, Nat.shiftRight_zero]

/-- The masks of the rule as the moduli over which XOR distributes. -/
theorem and_0xFF (n : Nat) : n &&& 0xFF = n % 2 ^ 8 := Nat.and_two_pow_sub_one_eq_mod n 8

theorem and_0xFFFF (n : Nat) : n &&& 0xFFFF = n % 2 ^ 16 := Nat.and_two_pow_sub_one_eq_mod n 16

/-! ### What a step and a fold determine -/

/-- The shifted checksum leaves the high byte of the term in view. -/
theorem crcStep_ushiftRight (mask crc : Crc) (b : Byte) :
    crcStep mask crc b >>> 8 = tmpTerm mask (b ^^^ crc.extractLsb' 0 8) >>> 8 := by
  rw [crcStep_eq_xor_tmpTerm, BitVec.ushiftRight_xor_distrib, ← BitVec.shiftRight_add,
    BitVec.ushiftRight_eq_zero (by decide), BitVec.zero_xor]

/-- A step determines the byte it folds in and the checksum's high byte. -/
theorem crcStep_inj {crc crc' : Crc} {b b' : Byte} (h : crcStep 0xFF#16 crc b = crcStep 0xFF#16 crc' b') :
    b ^^^ crc.extractLsb' 0 8 = b' ^^^ crc'.extractLsb' 0 8 ∧ crc >>> 8 = crc' >>> 8 := by
  have ht1 : b ^^^ crc.extractLsb' 0 8 = b' ^^^ crc'.extractLsb' 0 8 := by
    rw [← tmpOfTermHigh_tmpTerm (b ^^^ _), ← crcStep_ushiftRight, h, crcStep_ushiftRight,
      tmpOfTermHigh_tmpTerm]
  refine ⟨ht1, ?_⟩
  rw [crcStep_eq_xor_tmpTerm, crcStep_eq_xor_tmpTerm, ht1] at h
  exact (BitVec.xor_left_inj _).1 h

theorem crcStep_byte_injective (crc : Crc) : Function.Injective (crcStep 0xFF#16 crc) := fun _ _ h =>
  (BitVec.xor_left_inj _).1 (crcStep_inj h).1

theorem crcStep_seed_injective (b : Byte) : Function.Injective fun crc => crcStep 0xFF#16 crc b := by
  intro crc crc' h
  obtain ⟨hlow, hhigh⟩ := crcStep_inj h
  have hmod : crc.toNat % 256 = crc'.toNat % 256 := by
    rw [← toNat_lowByte, (BitVec.xor_right_inj _).1 hlow, toNat_lowByte]
  have hdiv : crc.toNat / 2 ^ 8 = crc'.toNat / 2 ^ 8 := by
    rw [← Nat.shiftRight_eq_div_pow, ← BitVec.toNat_ushiftRight, hhigh, BitVec.toNat_ushiftRight,
      Nat.shiftRight_eq_div_pow]
  exact BitVec.eq_of_toNat_eq (by omega)

theorem accumulate_append (mask : Crc) (xs ys : List Byte) (seed : Crc) :
    accumulate mask (xs ++ ys) seed = accumulate mask ys (accumulate mask xs seed) := by
  induction xs generalizing seed with
  | nil => rfl
  | cons x xs ih => exact ih (crcStep mask seed x)

theorem accumulate_seed_injective (bs : List Byte) : Function.Injective (accumulate 0xFF#16 bs) := by
  induction bs with
  | nil => exact Function.injective_id
  | cons b bs ih => exact ih.comp (crcStep_seed_injective b)

/-- The checksum of a list determines each byte of it when the others are known. -/
theorem accumulate_byte_injective (xs ys : List Byte) (seed : Crc) :
    Function.Injective fun b => accumulate 0xFF#16 (xs ++ b :: ys) seed := by
  intro b b' h
  simp only [accumulate_append, accumulate] at h
  exact crcStep_byte_injective _ (accumulate_seed_injective ys h)

/-- Settles O21: the frame's bytes around the changed one stay, and the checksum determines that one. -/
theorem onePayloadByteChangeChangesTheChecksum : Obligations.OnePayloadByteChangeChangesTheChecksum := by
  unfold Obligations.OnePayloadByteChangeChangesTheChecksum
  intro header payload extra b k hk hne h
  have hsplit : ∀ x, frameCrc Config.hw header (payload.set k x) extra =
      accumulate 0xFF#16 ((header ++ payload.take k) ++ x :: (payload.drop (k + 1) ++ [extra])) 0xFFFF#16 := by
    intro x
    simp [frameCrc, List.set_eq_take_append_cons_drop, hk]
  rw [← List.set_getElem_self (as := payload) hk, List.set_set] at h
  rw [hsplit, hsplit] at h
  exact hne (accumulate_byte_injective _ _ _ h).symm

/-! ### `crc_step` in its other forms -/

/-- The temporary of R80, with the mask's 8 bits: the 16 bits of the model lose nothing that the mask keeps. -/
theorem toNat_tmp (t1 : Byte) :
    ((t1.zeroExtend 16 ^^^ (t1.zeroExtend 16 <<< 4)) &&& 0xFF#16).toNat =
      (t1.toNat ^^^ (t1.toNat <<< 4)) &&& 0xFF := by
  have hwide : (t1.zeroExtend 16).toNat = t1.toNat := BitVec.toNat_setWidth_of_le (by decide)
  have hmask : (0xFF#16).toNat = 0xFF := rfl
  rw [BitVec.toNat_and, BitVec.toNat_xor, BitVec.toNat_shiftLeft, hwide, hmask, and_0xFF, and_0xFF,
    Nat.xor_mod_two_pow, Nat.xor_mod_two_pow, Nat.mod_mod_of_dvd _ (by decide)]

/-- Settles O16: the temporary is the rule's number, the right shifts stay below 16 bits, and truncation of the rest
distributes over XOR. -/
theorem crcStepComputesTheShiftXorFormula : Obligations.CrcStepComputesTheShiftXorFormula := by
  unfold Obligations.CrcStepComputesTheShiftXorFormula
  intro crc b t1 t
  have ht1 : (b ^^^ crc.extractLsb' 0 8).toNat = t1 := by
    rw [BitVec.toNat_xor, toNat_lowByte]
    exact congrArg _ (and_0xFF _).symm
  have ht : t < 2 ^ 8 := Nat.lt_of_le_of_lt Nat.and_le_right (by decide)
  have htrunc : t >>> 4 % 2 ^ 16 = t >>> 4 := by rw [Nat.shiftRight_eq_div_pow]; omega
  have hcrc : crc.toNat >>> 8 % 2 ^ 16 = crc.toNat >>> 8 := by rw [Nat.shiftRight_eq_div_pow]; omega
  rw [crcTmpMask_hw, crcStep_eq_xor_tmpTerm, and_0xFFFF]
  simp only [tmpTerm, BitVec.toNat_xor, BitVec.toNat_shiftLeft, BitVec.toNat_ushiftRight, toNat_tmp, ht1,
    Nat.xor_mod_two_pow, Nat.xor_assoc, htrunc, hcrc]
  rfl

/-- Settles O17: equal bytes XOR to 0, and the term of 0 is 0. -/
theorem equalByteShiftsTheChecksum : Obligations.EqualByteShiftsTheChecksum := by
  unfold Obligations.EqualByteShiftsTheChecksum
  refine ⟨fun crc b h => ?_, by decide, by decide⟩
  have hb : b = crc.extractLsb' 0 8 := BitVec.eq_of_toNat_eq (h.trans (toNat_lowByte crc).symm)
  rw [crcStep_eq_xor_tmpTerm, hb, BitVec.xor_self, tmpTerm_zero, BitVec.xor_zero, BitVec.toNat_ushiftRight,
    Nat.shiftRight_eq_div_pow]

/-- Settles O19: both forms XOR the shifted checksum with a value of the same byte. -/
theorem tableFormEqualsCrcStep : Obligations.TableFormEqualsCrcStep := by
  unfold Obligations.TableFormEqualsCrcStep
  refine ⟨fun crc b => ?_, by decide⟩
  rw [crcStepByTable, crcTable_eq_tmpTerm, BitVec.xor_comm (crc.extractLsb' 0 8), crcTmpMask_hw,
    crcStep_eq_xor_tmpTerm]

/-- Settles O20: the shifted checksum cancels, and the two terms are compared by their byte. -/
theorem literalReadingAgreesExactlyBelow16 : Obligations.LiteralReadingAgreesExactlyBelow16 := by
  unfold Obligations.LiteralReadingAgreesExactlyBelow16
  refine ⟨crcTmpMask_hw, fun crc b => ?_, by decide, by decide, by decide, by decide⟩
  rw [crcStep_eq_xor_tmpTerm, crcStep_eq_xor_tmpTerm, BitVec.xor_right_inj, tmpTerm_unmasked_eq_iff,
    BitVec.toNat_xor, toNat_lowByte]

/-- Settles O18: the first two clauses are the definition's equations (R82). -/
theorem accumulateComposesOverConcatenation : Obligations.AccumulateComposesOverConcatenation := by
  unfold Obligations.AccumulateComposesOverConcatenation
  exact ⟨fun _ _ => rfl, fun _ _ _ _ => rfl, fun mask seed xs ys => accumulate_append mask xs ys seed⟩

/-! ### The two commands -/

/-- Settles O14: the word's `din` is not decoded. -/
theorem crcSeedLoadsTheAccumulator : Obligations.CrcSeedLoadsTheAccumulator := by
  unfold Obligations.CrcSeedLoadsTheAccumulator
  intro s din seed
  have hexec : exec (.crcSeed seed) s = .next { s with crcAcc := some seed, out := .none } := rfl
  exact ⟨hexec, by rw [commandStep, decode_packWord_crcSeed, hexec]⟩

/-- Settles O15: the word's `seed` is not decoded, and the two cases are those of `crc_acc`. -/
theorem crcAccFoldsOneByteOrFaults : Obligations.CrcAccFoldsOneByteOrFaults := by
  unfold Obligations.CrcAccFoldsOneByteOrFaults
  intro s din seed
  refine ⟨by rw [commandStep, decode_packWord_crcAcc], fun crc h => ?_, fun h => ?_⟩
  · rw [exec, execCrcAcc, h]; rfl
  · rw [exec, execCrcAcc, h]

/-- Settles O22: the run is that of `CRC s:` (30_encoding.md R77), and `crc_out` is `crc_acc` by its definition. -/
theorem seedThenAccumulateRun : Obligations.SeedThenAccumulateRun := by
  unfold Obligations.SeedThenAccumulateRun
  refine ⟨fun s seed bs => ?_, fun _ _ t _ => crcOut_eq_crcAcc t⟩
  obtain ⟨o, hrun⟩ := runCommands_seed_accWords s seed bs
  exact ⟨_, hrun, rfl, by simp [SameFd]⟩

end Sys2Proof.Machine
end

section
/-! SUPPORT. Runs of bytes on phases: the bytes that are taken with NEED_MORE each, the bytes that end a frame with a
result, and the parts of a frame as such runs. -/

namespace Sys2Proof.Machine

namespace Phase

/-- The bytes lead from one phase to another with NEED_MORE at each of them. -/
def Quiet (φ : Phase) (bs : List Byte) (ψ : Phase) : Prop :=
  φ.run bs = (List.replicate bs.length .needMore, ψ)

/-- The bytes end the frame: the result at the last of them, NEED_MORE before, and AwaitSync after it. -/
def Ends (φ : Phase) (bs : List Byte) (r : Result) : Prop :=
  ∃ n, bs.length = n + 1 ∧ φ.run bs = (List.replicate n .needMore ++ [r], .idle)

theorem run_cons (φ : Phase) (b : Byte) (bs : List Byte) :
    φ.run (b :: bs) = ((φ.step b).2 :: ((φ.step b).1.run bs).1, ((φ.step b).1.run bs).2) := rfl

theorem run_append (φ : Phase) (xs ys : List Byte) :
    φ.run (xs ++ ys) = ((φ.run xs).1 ++ ((φ.run xs).2.run ys).1, ((φ.run xs).2.run ys).2) := by
  induction xs generalizing φ with
  | nil => rfl
  | cons x xs ih => rw [List.cons_append, run_cons, ih, run_cons]; rfl

theorem Quiet.nil (φ : Phase) : Quiet φ [] φ := rfl

theorem Quiet.cons {φ ψ χ : Phase} {b : Byte} {bs : List Byte} (hb : φ.step b = (ψ, .needMore))
    (h : Quiet ψ bs χ) : Quiet φ (b :: bs) χ := by
  rw [Quiet, run_cons, hb, h]; rfl

theorem Quiet.append {φ ψ χ : Phase} {xs ys : List Byte} (hx : Quiet φ xs ψ) (hy : Quiet ψ ys χ) :
    Quiet φ (xs ++ ys) χ := by
  rw [Quiet, run_append, hx, hy, List.length_append, List.replicate_add]

theorem Ends.of_step {φ : Phase} {b : Byte} {r : Result} (hb : φ.step b = (.idle, r)) : Ends φ [b] r :=
  ⟨0, rfl, by rw [run_cons, hb]; rfl⟩

theorem Quiet.ends {φ ψ : Phase} {xs ys : List Byte} {r : Result} (hx : Quiet φ xs ψ) (hy : Ends ψ ys r) :
    Ends φ (xs ++ ys) r := by
  obtain ⟨n, hn, hrun⟩ := hy
  refine ⟨xs.length + n, by rw [List.length_append, hn, Nat.add_assoc], ?_⟩
  rw [run_append, hx, hrun, List.replicate_add, List.append_assoc]

theorem Ends.cons {φ ψ : Phase} {b : Byte} {bs : List Byte} {r : Result} (hb : φ.step b = (ψ, .needMore))
    (h : Ends ψ bs r) : Ends φ (b :: bs) r :=
  (Quiet.cons hb (.nil ψ)).ends h

/-! ### The parts of a frame -/

variable {v2 : Bool} {h p : List Byte}

/-- The phase after the last header byte (41_decoder.md R102). -/
def headerDone (v2 : Bool) (h : List Byte) : Phase :=
  if 0 < listLen h then .payload v2 h [] else .sumLow v2 h []

theorem step_header_last {b : Byte} (he : h.length + 1 = if v2 then 9 else 5) :
    (Phase.header v2 h).step b = (headerDone v2 (h ++ [b]), .needMore) := by
  rw [step, if_pos he, headerDone]; split <;> rfl

theorem step_header_more {b : Byte} (hne : h.length + 1 ≠ if v2 then 9 else 5) :
    (Phase.header v2 h).step b = (.header v2 (h ++ [b]), .needMore) := if_neg hne

theorem step_payload_last {b : Byte} (he : p.length + 1 = listLen h) :
    (Phase.payload v2 h p).step b = (.sumLow v2 h (p ++ [b]), .needMore) := if_pos he

theorem step_payload_more {b : Byte} (hne : p.length + 1 ≠ listLen h) :
    (Phase.payload v2 h p).step b = (.payload v2 h (p ++ [b]), .needMore) := if_neg hne

/-- The bytes that are left of the header complete it. -/
theorem quiet_header {b : Byte} {bs : List Byte} (hlen : h.length + (b :: bs).length = if v2 then 9 else 5) :
    Quiet (.header v2 h) (b :: bs) (headerDone v2 (h ++ b :: bs)) := by
  induction bs generalizing h b with
  | nil => exact .cons (step_header_last hlen) (.nil _)
  | cons b' bs ih =>
    simp only [List.length_cons] at hlen
    have hrest := ih (h := h ++ [b]) (b := b') (by rw [← hlen]; simp; omega)
    rw [List.append_assoc] at hrest
    exact .cons (step_header_more (by omega)) hrest

/-- The bytes that are left of the payload complete it. -/
theorem quiet_payload {b : Byte} {bs : List Byte} (hlen : p.length + (b :: bs).length = listLen h) :
    Quiet (.payload v2 h p) (b :: bs) (.sumLow v2 h (p ++ b :: bs)) := by
  induction bs generalizing p b with
  | nil => exact .cons (step_payload_last hlen) (.nil _)
  | cons b' bs ih =>
    simp only [List.length_cons] at hlen
    have hrest := ih (p := p ++ [b]) (b := b') (by rw [← hlen]; simp; omega)
    rw [List.append_assoc] at hrest
    exact .cons (step_payload_more (by omega)) hrest

/-- The declared payload, which may be empty, follows a complete header. -/
theorem quiet_headerDone (hp : p.length = listLen h) : Quiet (headerDone v2 h) p (.sumLow v2 h p) := by
  unfold headerDone
  cases p with
  | nil => rw [if_neg (by rw [← hp]; exact Nat.lt_irrefl 0)]; exact .nil _
  | cons b bs => rw [if_pos (by rw [← hp]; exact Nat.succ_pos _)]; exact quiet_payload (by rw [← hp]; simp)

/-- The signature bytes that are left end a signed frame (41_decoder.md R106). -/
theorem ends_sign {crc : Crc} {k : Nat} {b : Byte} {bs : List Byte} (hlen : k + (b :: bs).length = 13) :
    Ends (.sign v2 h p crc k) (b :: bs) (verdictResult (listVerdict v2 h p crc)) := by
  induction bs generalizing k b with
  | nil => exact .of_step (if_pos hlen)
  | cons b' bs ih =>
    simp only [List.length_cons] at hlen
    exact .cons (if_neg (by omega)) (ih (k := k + 1) (b := b') (by simp; omega))

/-- The checksum bytes, and the signature of a signed frame, end a frame whose payload is complete. -/
theorem ends_sumLow {lo hi : Byte} {sig : List Byte} (hsig : listSigned v2 h = true → sig.length = 13) :
    Ends (.sumLow v2 h p) ([lo, hi] ++ if listSigned v2 h then sig else [])
      (verdictResult (listVerdict v2 h p (hi ++ lo))) := by
  by_cases hs : listSigned v2 h = true
  · rw [if_pos hs]
    have hquiet : Quiet (.sumLow v2 h p) [lo, hi] (.sign v2 h p (hi ++ lo) 0) :=
      .cons rfl (.cons (if_pos hs) (.nil _))
    cases sig with
    | nil => exact absurd (hsig hs) (by simp)
    | cons b bs => exact hquiet.ends (ends_sign (by rw [Nat.zero_add]; exact hsig hs))
  · rw [if_neg hs]
    exact .cons rfl (.of_step (if_neg hs))

end Phase

/-! ### A run of bytes on a state that is in AwaitSync -/

/-- Bytes that are no sync bytes are discarded (41_decoder.md R98). -/
theorem Phase.quiet_idle {bs : List Byte} (h : ∀ b ∈ bs, b ≠ 0xFD#8 ∧ b ≠ 0xFE#8) :
    Phase.Quiet .idle bs .idle := by
  induction bs with
  | nil => exact .nil _
  | cons b bs ih =>
    rw [List.forall_mem_cons] at h
    obtain ⟨⟨h2, h1⟩, hbs⟩ := h
    exact .cons ((if_neg h2).trans (if_neg h1)) (ih hbs)

/-- A run of bytes from AwaitSync emits the results of its phases. -/
theorem feed_of_run {s : State} (hs : s.st = .awaitSync) {bs : List Byte} {rs : List Result} {ψ : Phase}
    (h : Phase.run .idle bs = (rs, ψ)) :
    ∃ t, feed bs s = .next (rs, t) ∧ InPhase t ψ ∧ t.crcAcc = s.crcAcc := by
  obtain ⟨t, hfeed, hψ, ha, _⟩ := feed_inPhase (φ := .idle) hs bs
  rw [h] at hfeed hψ
  exact ⟨t, hfeed, hψ, ha⟩

/-! ### Numbers from their wire bytes (20_memory.md R42, R43) -/

/-- The three bytes of a message id, assembled again. -/
theorem le24_extractLsb' (m : MsgId) :
    le24 (m.extractLsb' 0 8) (m.extractLsb' 8 8) (m.extractLsb' 16 8) = m := by
  refine BitVec.eq_of_toNat_eq ?_
  rw [toNat_le24]
  simp only [BitVec.extractLsb'_toNat, Nat.shiftRight_eq_div_pow]
  omega

/-- The two checksum bytes, assembled again (20_memory.md R43). -/
theorem append_checksumBytes (crc : Crc) : (crc.extractLsb' 8 8 ++ crc.extractLsb' 0 8 : BitVec (8 + 8)) = crc := by
  refine BitVec.eq_of_toNat_eq ?_
  rw [toNat_append_eq_add]
  simp only [BitVec.extractLsb'_toNat, Nat.shiftRight_eq_div_pow]
  omega

/-! ### A frame's fields in its header (30_encoding.md R61 to R66) -/

namespace Frame

variable {f : Frame}

theorem wellFormed_payload (hf : f.wellFormed Config.hw = true) : f.payload.length < 256 := by
  simp only [wellFormed, Bool.and_eq_true, decide_eq_true_eq] at hf
  obtain ⟨⟨hlen, _⟩, _⟩ := hf
  exact hlen

theorem wellFormed_msgid (hf : f.wellFormed Config.hw = true) (hv : f.format = .v1) : f.msgid.toNat < 256 := by
  simp only [wellFormed, hv, Bool.and_eq_true, decide_eq_true_eq] at hf
  obtain ⟨_, hid⟩ := hf
  exact hid

theorem wellFormed_signature (hf : f.wellFormed Config.hw = true) (hs : f.format.isSigned = true) :
    f.signature.length = 13 := by
  have hv : f.format = .v2s := by cases hfm : f.format <;> simp [hfm, FrameFormat.isSigned] at hs ⊢
  simp only [wellFormed, hv, Bool.and_eq_true, decide_eq_true_eq] at hf
  obtain ⟨_, hsig⟩ := hf
  exact hsig

theorem header_length (f : Frame) : f.header.length = if f.format.isV2 then 9 else 5 := by
  unfold header
  cases f.format <;> rfl

theorem listSigned_header (f : Frame) : listSigned f.format.isV2 f.header = f.format.isSigned := by
  unfold header
  cases f.format with
  | v1 => rfl
  | v2 => exact BitVec.getLsbD_append
  | v2s => exact BitVec.getLsbD_append

theorem header_getD_zero (f : Frame) : f.header.getD 0 0#8 = f.len := by
  unfold header
  cases f.format <;> rfl

theorem listLen_header (hf : f.wellFormed Config.hw = true) : listLen f.header = f.payload.length := by
  rw [listLen, header_getD_zero, len, BitVec.toNat_ofNat, Nat.mod_eq_of_lt (wellFormed_payload hf)]

theorem listMsgid_header (hf : f.wellFormed Config.hw = true) :
    listMsgid f.format.isV2 f.header = f.msgid := by
  unfold header
  cases hv : f.format with
  | v1 =>
    refine BitVec.eq_of_toNat_eq ?_
    have := wellFormed_msgid hf hv
    simp [listMsgid, FrameFormat.isV2, BitVec.extractLsb'_toNat]
    omega
  | v2 => exact le24_extractLsb' f.msgid
  | v2s => exact le24_extractLsb' f.msgid

theorem listMessage_header (hf : f.wellFormed Config.hw = true) :
    listMessage f.format.isV2 f.header f.payload = f.message := by
  unfold listMessage
  rw [listMsgid_header hf, header_getD_zero, listSigned_header]
  unfold header message
  cases f.format <;> rfl

/-- The decision on the frame's captured bytes is its result (41_decoder.md R107). -/
theorem verdictResult_listVerdict (hf : f.wellFormed Config.hw = true) :
    verdictResult (listVerdict f.format.isV2 f.header f.payload f.checksum) = f.result Config.hw := by
  unfold listVerdict result
  rw [listMsgid_header hf, listMessage_header hf]
  cases extraOf Config.hw f.msgid with
  | none => rfl
  | some x =>
    exact apply_ite verdictResult _ _ _

theorem step_sync (f : Frame) : Phase.idle.step (f.sync Config.hw) = (.header f.format.isV2 [], .needMore) := by
  unfold sync
  cases f.format <;> rfl

theorem length_bytes (hf : f.wellFormed Config.hw = true) : (f.bytes Config.hw).length = f.total := by
  have hsig : f.format.isSigned = true → f.signature.length = 13 := wellFormed_signature hf
  simp only [bytes, List.length_append, List.length_cons, header_length, checksumBytes, total]
  cases hv : f.format with
  | v1 => simp [FrameFormat.isV2, FrameFormat.isSigned]; omega
  | v2 => simp [FrameFormat.isV2, FrameFormat.isSigned]; omega
  | v2s =>
    rw [hv] at hsig
    simp [FrameFormat.isV2, FrameFormat.isSigned, hsig rfl]; omega

/-- A well-formed frame ends with its result (41_decoder.md R113). -/
theorem ends_bytes (hf : f.wellFormed Config.hw = true) :
    Phase.Ends .idle (f.bytes Config.hw) (f.result Config.hw) := by
  have hhdr : Phase.Quiet (.header f.format.isV2 []) f.header (Phase.headerDone f.format.isV2 f.header) := by
    have hlen := f.header_length
    cases hh : f.header with
    | nil => rw [hh] at hlen; split at hlen <;> simp at hlen
    | cons b bs => rw [hh] at hlen; exact Phase.quiet_header (by simpa using hlen)
  have hpay := Phase.quiet_headerDone (v2 := f.format.isV2) (listLen_header hf).symm
  have hend := Phase.ends_sumLow (v2 := f.format.isV2) (h := f.header) (p := f.payload)
    (lo := f.checksum.extractLsb' 0 8) (hi := f.checksum.extractLsb' 8 8) (sig := f.signature)
    (fun hs => wellFormed_signature hf (by rwa [listSigned_header] at hs))
  rw [append_checksumBytes, verdictResult_listVerdict hf, listSigned_header] at hend
  have h := Phase.Ends.cons f.step_sync (hhdr.ends (hpay.ends hend))
  unfold bytes
  simpa [checksumBytes] using h

/-- The run of a well-formed frame from AwaitSync. -/
theorem run_bytes (hf : f.wellFormed Config.hw = true) :
    Phase.run .idle (f.bytes Config.hw) =
      (List.replicate (f.total - 1) .needMore ++ [f.result Config.hw], .idle) := by
  obtain ⟨n, hn, hrun⟩ := ends_bytes hf
  rw [length_bytes hf] at hn
  rw [hrun, hn, Nat.add_sub_cancel]

theorem endsFrame_result (f : Frame) : (f.result Config.hw).endsFrame = true := by
  unfold result
  cases extraOf Config.hw f.msgid with
  | none => rfl
  | some x => dsimp only; split <;> rfl

/-- A valid frame's message id has an extra byte, and the frame carries the checksum under it. -/
theorem valid_iff {c : Config} : f.valid c = true ↔ ∃ x, extraOf c f.msgid = some x ∧ f.checksum = f.crcWith c x := by
  unfold valid
  cases extraOf c f.msgid <;> simp

theorem result_of_valid (hf : f.valid Config.hw = true) : f.result Config.hw = .frameReady f.message := by
  obtain ⟨x, hx, hc⟩ := valid_iff.1 hf
  simp [result, hx, ← hc]

end Frame

end Sys2Proof.Machine
end

section
/-! PROOF. The family of 41_decoder.md: whole frames (R113 to R118). -/

namespace Sys2Proof.Machine

/-- Settles O50: the frame's parts, sync byte, header, payload, checksum and signature, each lead to the next with
NEED_MORE, and the last one ends the frame with FINALIZE's decision on the captured bytes. -/
theorem frameGivesItsResultOnTheLastByte : Obligations.FrameGivesItsResultOnTheLastByte := by
  unfold Obligations.FrameGivesItsResultOnTheLastByte
  intro f s hf hs
  obtain ⟨t, hfeed, ht, ha⟩ := feed_of_run hs (Frame.run_bytes hf)
  exact ⟨Frame.length_bytes hf, t, hfeed, f.endsFrame_result, ht, ha⟩

/-- The run of a valid frame from AwaitSync. -/
theorem Frame.run_bytes_of_valid {f : Frame} (hf : f.wellFormed Config.hw = true) (hv : f.valid Config.hw = true) :
    Phase.run .idle (f.bytes Config.hw) =
      (List.replicate (f.total - 1) .needMore ++ [.frameReady f.message], .idle) := by
  rw [run_bytes hf, result_of_valid hv]

/-! ### The HEARTBEAT stimulus (30_encoding.md R79) -/

theorem heartbeatFrame_wellFormed (v2 : Bool) (seq sysid compid : Byte) :
    (heartbeatFrame Config.hw v2 seq sysid compid).wellFormed Config.hw = true := by
  cases v2 <;> rfl

/-- The checksum that the stimulus carries is computed under the extra byte of its message id. -/
theorem heartbeatFrame_valid (v2 : Bool) (seq sysid compid : Byte) :
    (heartbeatFrame Config.hw v2 seq sysid compid).valid Config.hw = true :=
  Frame.valid_iff.2 ⟨50#8, rfl, rfl⟩

/-- Settles O51: the HEARTBEAT is a valid frame. -/
theorem heartbeatRoundTrip : Obligations.HeartbeatRoundTrip := by
  unfold Obligations.HeartbeatRoundTrip
  intro v2 seq sysid compid s hs
  obtain ⟨t, hfeed, _⟩ := feed_of_run hs (Frame.run_bytes_of_valid (heartbeatFrame_wellFormed v2 seq sysid compid)
    (heartbeatFrame_valid v2 seq sysid compid))
  refine ⟨t, hfeed.trans ?_⟩
  cases v2 <;> rfl

/-! ### Noise before a frame -/

/-- Settles O52: the noise is discarded byte by byte. As noise with a sync value take `FD FF`: it opens a version-2
frame of 255 payload bytes, and the HEARTBEAT that follows is taken as part of that frame. -/
theorem noiseWithoutSyncValuesIsHarmless : Obligations.NoiseWithoutSyncValuesIsHarmless := by
  unfold Obligations.NoiseWithoutSyncValuesIsHarmless
  constructor
  · intro noise f s hnoise hf hv hs
    have hrun := Phase.run_append .idle noise (f.bytes Config.hw)
    rw [Phase.quiet_idle hnoise, Frame.run_bytes_of_valid hf hv, ← List.append_assoc, ← List.replicate_add] at hrun
    obtain ⟨t, hfeed, _⟩ := feed_of_run hs hrun
    exact ⟨t, hfeed⟩
  · refine ⟨[0xFD#8, 0xFF#8], heartbeatFrame Config.hw false 0#8 1#8 1#8, heartbeatFrame_wellFormed _ _ _ _,
      heartbeatFrame_valid _ _ _ _, ?_⟩
    obtain ⟨t, hfeed, _⟩ := feed_inPhase (s := State.reset) (φ := .idle) rfl
      ([0xFD#8, 0xFF#8] ++ (heartbeatFrame Config.hw false 0#8 1#8 1#8).bytes Config.hw)
    exact ⟨_, t, hfeed, by decide⟩

/-! ### A corrupted payload byte -/

namespace Frame

/-- The frame with payload byte `k` changed to `b`. -/
abbrev withPayloadByte (f : Frame) (k : Nat) (b : Byte) : Frame := { f with payload := f.payload.set k b }

variable {f : Frame} {k : Nat} {b : Byte}

theorem withPayloadByte_wellFormed (hf : f.wellFormed Config.hw = true) :
    (f.withPayloadByte k b).wellFormed Config.hw = true := by
  simpa only [wellFormed, List.length_set] using hf

theorem withPayloadByte_total : (f.withPayloadByte k b).total = f.total := by
  simp [total]

theorem withPayloadByte_header : (f.withPayloadByte k b).header = f.header := by
  simp [header, len]

/-- The checksum of a valid frame does not fit the changed payload (40_crc.md R91). -/
theorem withPayloadByte_result (hv : f.valid Config.hw = true) (hk : k < f.payload.length) (hne : f.payload[k] ≠ b) :
    (f.withPayloadByte k b).result Config.hw = .frameRejected .crcMismatch := by
  obtain ⟨x, hx, hc⟩ := valid_iff.1 hv
  have hcrc : (f.withPayloadByte k b).crcWith Config.hw x ≠ f.checksum := by
    rw [hc, crcWith, crcWith, withPayloadByte_header]
    exact onePayloadByteChangeChangesTheChecksum f.header f.payload x b k hk hne
  rw [result, hx]
  exact if_pos hcrc

end Frame

/-- Settles O53: the changed frame is well-formed, its result is CRC_MISMATCH, and the run of the next frame starts
from AwaitSync again. -/
theorem corruptedPayloadIsRejectedAndTheNextFrameDelivered :
    Obligations.CorruptedPayloadIsRejectedAndTheNextFrameDelivered := by
  unfold Obligations.CorruptedPayloadIsRejectedAndTheNextFrameDelivered
  intro f g k b s hk hf hfv hg hgv hne hs
  have hrun := Phase.run_append .idle ((f.withPayloadByte k b).bytes Config.hw) (g.bytes Config.hw)
  rw [Frame.run_bytes (Frame.withPayloadByte_wellFormed hf), Frame.run_bytes_of_valid hg hgv,
    Frame.withPayloadByte_total, Frame.withPayloadByte_result hfv hk hne, ← List.append_assoc] at hrun
  obtain ⟨t, hfeed, _⟩ := feed_of_run hs hrun
  exact ⟨t, hfeed⟩

/-! ### The incremental checksum (R115) -/

/-- The bytes of the frame in progress that the checksum has taken; none before a sync byte. -/
def Phase.folded : Phase → Option (List Byte)
  | .idle => none
  | .header _ h => some h
  | .payload _ h p => some (h ++ p)
  | .sumLow _ h p => some (h ++ p)
  | .sumHigh _ h p _ => some (h ++ p)
  | .sign _ h p _ _ => some (h ++ p)

/-- The incremental register holds the checksum of the bytes taken so far. -/
def Phase.Agrees (φ : Phase) (r : Crc) : Prop :=
  ∀ bs, φ.folded = some bs → r = accumulate Config.hw.crcTmpMask bs Config.hw.crcSeed

theorem accumulate_concat (mask : Crc) (bs : List Byte) (b : Byte) (seed : Crc) :
    accumulate mask (bs ++ [b]) seed = crcStep mask (accumulate mask bs seed) b :=
  accumulate_append mask bs [b] seed

theorem Phase.folded_headerDone (v2 : Bool) (h : List Byte) : (headerDone v2 h).folded = some h := by
  unfold headerDone
  split <;> simp [folded]

/-- A header byte is folded. -/
theorem Phase.folded_step_header (v2 : Bool) (h : List Byte) (b : Byte) :
    ((Phase.header v2 h).step b).1.folded = some (h ++ [b]) := by
  by_cases he : h.length + 1 = if v2 then 9 else 5
  · rw [step_header_last he]; exact folded_headerDone v2 _
  · rw [step_header_more he]; rfl

/-- A payload byte is folded. -/
theorem Phase.folded_step_payload (v2 : Bool) (h p : List Byte) (b : Byte) :
    ((Phase.payload v2 h p).step b).1.folded = some (h ++ p ++ [b]) := by
  rw [List.append_assoc]
  by_cases he : p.length + 1 = listLen h
  · rw [step_payload_last he]; rfl
  · rw [step_payload_more he]; rfl

/-- A byte keeps the register's agreement: the sync byte seeds it, and of the later bytes those of the header and
the payload are folded. -/
theorem Phase.Agrees.step {s : State} {φ : Phase} {r : Crc} (hr : φ.Agrees r) (hφ : InPhase s φ) (b : Byte) :
    (φ.step b).1.Agrees (incrementalCrc Config.hw s.st b r) := by
  have fold : ∀ {bs}, φ.folded = some bs → (φ.step b).1.folded = some (bs ++ [b]) →
      (φ.step b).1.Agrees (crcStep Config.hw.crcTmpMask r b) := by
    intro bs hb hstep bs' hb'
    cases hstep.symm.trans hb'
    rw [hr bs hb, accumulate_concat]
  cases φ with
  | idle =>
    rw [show s.st = .awaitSync from hφ]
    by_cases h2 : b = 0xFD#8
    · subst h2; intro bs hb; cases hb; rfl
    · by_cases h1 : b = 0xFE#8
      · subst h1; intro bs hb; cases hb; rfl
      · rw [Phase.step, if_neg h2, if_neg h1]; intro bs hb; cases hb
  | header v2 h =>
    obtain ⟨hst, _⟩ := hφ
    rw [hst]; exact fold rfl (folded_step_header v2 h b)
  | payload v2 h p =>
    obtain ⟨hst, _⟩ := hφ
    rw [hst]; exact fold rfl (folded_step_payload v2 h p b)
  | sumLow v2 h p =>
    obtain ⟨hst, _⟩ := hφ
    rw [hst]; exact hr
  | sumHigh v2 h p lo =>
    obtain ⟨hst, _⟩ := hφ
    rw [hst, Phase.step]
    split
    · exact hr
    · intro bs hb; cases hb
  | sign v2 h p crc k =>
    obtain ⟨hst, _⟩ := hφ
    rw [hst, Phase.step]
    split
    · intro bs hb; cases hb
    · exact hr

/-- Along every run of bytes the register agrees with the phase. -/
theorem incrementalRun_agrees {bs : List Byte} {s t : State} {φ : Phase} {r0 r : Crc} (hφ : InPhase s φ)
    (hr : φ.Agrees r0) (h : incrementalRun Config.hw bs s r0 = .next (t, r)) :
    ∃ ψ, InPhase t ψ ∧ ψ.Agrees r := by
  induction bs generalizing s φ r0 with
  | nil => cases h; exact ⟨φ, hφ, hr⟩
  | cons b bs ih =>
    obtain ⟨u, hu, hψ, _⟩ := step_inPhase hφ b
    have hcmd : commandStep (byteWord b) s = .next u := by rw [byteWord, commandStep_byte, hu]
    rw [incrementalRun, hcmd] at h
    exact ih hψ (hr.step hφ b) h

namespace Holds

variable {s : State} {v2 : Bool} {h p : List Byte}

theorem headerOf_eq (hs : Holds s v2 h p) : headerOf Config.hw s = some h := by
  rw [headerOf, hlen_hw, hs.ver2, ← hs.full, hs.hdr]

theorem payloadOf_eq (hs : Holds s v2 h p) (hp : p.length = listLen h) : payloadOf s = some p :=
  payloadOf_eq_some.2 ⟨_, hs.declaredLen_eq, (show p.length = (h.getD 0 0#8).toNat from hp) ▸ hs.pay⟩

end Holds

/-- Once the payload is complete the checksum has taken the captured header and payload. -/
theorem InPhase.holds_folded {s : State} {φ : Phase} (hφ : InPhase s φ)
    (hst : s.st = .checksumLow ∨ s.st = .checksumHigh ∨ s.st = .signature) :
    ∃ v2 h p, Holds s v2 h p ∧ p.length = listLen h ∧ φ.folded = some (h ++ p) := by
  cases φ with
  | idle => simp [show s.st = .awaitSync from hφ] at hst
  | header => simp [hφ.1] at hst
  | payload => simp [hφ.1] at hst
  | sumLow => obtain ⟨_, hs, hp⟩ := hφ; exact ⟨_, _, _, hs, hp, rfl⟩
  | sumHigh => obtain ⟨_, hs, hp, _⟩ := hφ; exact ⟨_, _, _, hs, hp, rfl⟩
  | sign => obtain ⟨_, hs, hp, _⟩ := hφ; exact ⟨_, _, _, hs, hp, rfl⟩

/-- Settles O55: the register agrees with the phase along the run, and the extra byte is one more step of the
fold (40_crc.md R83, R84). -/
theorem incrementalChecksumEqualsTheOneAtFinalize : Obligations.IncrementalChecksumEqualsTheOneAtFinalize := by
  unfold Obligations.IncrementalChecksumEqualsTheOneAtFinalize
  intro bs s t r0 r hs hrun hst extra
  obtain ⟨ψ, hψ, hr⟩ := incrementalRun_agrees (φ := .idle) hs (fun _ h => by cases h) hrun
  obtain ⟨v2, h, p, hold, hp, hf⟩ := hψ.holds_folded hst
  rw [hr _ hf, ← accumulate_concat]
  exact frameCrcOf_eq_some.2 ⟨h, p, hold.headerOf_eq, hold.payloadOf_eq hp, rfl⟩

end Sys2Proof.Machine
end

section
/-! PROOF. The family of 41_decoder.md: the single transitions (R95 to R111). -/

namespace Sys2Proof.Machine

/-! ### DEC_BYTE as the instruction of its row -/

/-- A DEC_BYTE word runs the instruction that its byte decodes to (30_encoding.md R78). -/
theorem commandStep_byte_of_decode {s : State} {din : Byte} {i : Instr}
    (h : decodeByte Config.hw s.st din = i) (seed : Crc) :
    commandStep (packWord 0b001#3 din seed) s = exec i s := by
  rw [commandStep_byte, h]

section

variable {s : State} {st : ParserState} (hst : s.st = st) (din : Byte)

include hst

theorem decodeByte_of_st : decodeByte Config.hw s.st din = decodeByte Config.hw st din := by rw [hst]

/-- The row's instruction takes each transition of the byte. -/
theorem ByteStep.exec_row {t : State} (h : ByteStep din s t) : exec (decodeByte Config.hw st din) s = .next t := by
  rw [← hst]; exact exec_decodeByte_next.2 h

end

/-- Under the invariant a byte has a transition (R95). -/
theorem FdInv.byteStep {s : State} (hs : FdInv s) (b : Byte) : ∃ t, ByteStep b s t := by
  obtain ⟨φ, hφ⟩ := hs.inPhase
  obtain ⟨t, ht, _⟩ := step_inPhase hφ b
  exact ⟨t, exec_decodeByte_next.1 ht⟩

/-! ### Commands and transitions without a condition on the captured bytes -/

/-- Settles O12: the word's `din` and `seed` are not decoded. -/
theorem nopChangesNothing : Obligations.NopChangesNothing := by
  unfold Obligations.NopChangesNothing
  intro s din seed
  have hexec : exec .nop s = .next { s with out := .none } := rfl
  exact ⟨hexec, by rw [commandStep, decode_packWord_nop, hexec]⟩

/-- Settles O13: the word's `din` and `seed` are not decoded. -/
theorem decClearReturnsToAwaitSync : Obligations.DecClearReturnsToAwaitSync := by
  unfold Obligations.DecClearReturnsToAwaitSync
  intro s din seed
  have hexec : exec .decClear s = .next { s with st := .awaitSync, out := .none } := rfl
  exact ⟨hexec, by rw [commandStep, decode_packWord_decClear, hexec]⟩

/-- Settles O25: the byte decodes to the first sync row. -/
theorem syncV2StartsAVersion2Frame : Obligations.SyncV2StartsAVersion2Frame := by
  unfold Obligations.SyncV2StartsAVersion2Frame
  intro s seed hst
  exact ⟨rfl, commandStep_byte_of_decode (decodeByte_of_st hst _) seed⟩

/-- Settles O26: the byte decodes to the second sync row. -/
theorem syncV1StartsAVersion1Frame : Obligations.SyncV1StartsAVersion1Frame := by
  unfold Obligations.SyncV1StartsAVersion1Frame
  intro s seed hst
  exact ⟨rfl, commandStep_byte_of_decode (decodeByte_of_st hst _) seed⟩

/-- Settles O27: a byte that is no sync byte decodes to DISCARD. -/
theorem discardWritesNoState : Obligations.DiscardWritesNoState := by
  unfold Obligations.DiscardWritesNoState
  intro s din seed hst h2 h1
  exact ⟨rfl, commandStep_byte_of_decode
    ((decodeByte_of_st hst din).trans (decodeByte_of_notSync (notSync_iff.2 ⟨h2, h1⟩))) seed⟩

/-- Settles O31: the low byte of `crc_rx` is replaced. -/
theorem checksumLowByteIsCaptured : Obligations.ChecksumLowByteIsCaptured := by
  unfold Obligations.ChecksumLowByteIsCaptured
  intro s din seed hst
  exact ⟨commandStep_byte_of_decode (decodeByte_of_st hst din) seed, withLowByte s.crcRx din, rfl,
    toNat_withLowByte s.crcRx din⟩

/-! ### The header and the payload -/

/-- Every transition in Header stores the byte and settles the signed flag, and beside that writes `hidx` alone, or
ends the header (R99, R101, R102). -/
theorem ByteStep.header_cases {b : Byte} {s t : State} (h : ByteStep b s t) (hst : s.st = .header) :
    ∃ st hidx pidx, t = emit .needMore { afterHeaderByte b s with st := st, hidx := hidx, pidx := pidx } ∧
      ((s.hidx.toNat + 1 = (if s.ver2 then 9 else 5) ∧ hidx = s.hidx ∧ ∃ l, Memory.read s.hdr 0 = some l ∧
          ((0 < l.toNat ∧ st = .payload ∧ pidx = 0#8) ∨ (l.toNat = 0 ∧ st = .checksumLow ∧ pidx = s.pidx))) ∨
       (s.hidx.toNat + 1 ≠ (if s.ver2 then 9 else 5) ∧ st = .header ∧ hidx.toNat = s.hidx.toNat + 1 ∧
          pidx = s.pidx)) := by
  cases h with
  | headerMore _ hi hne => exact ⟨_, _, _, rfl, .inr ⟨hne, hst, by bv_omega, rfl⟩⟩
  | headerToPayload l _ hi he hl hpos => exact ⟨_, _, _, rfl, .inl ⟨he, rfl, l, hl, .inl ⟨hpos, rfl, rfl⟩⟩⟩
  | headerToChecksum l _ hi he hl hz => exact ⟨_, _, _, rfl, .inl ⟨he, rfl, l, hl, .inr ⟨hz, rfl, rfl⟩⟩⟩
  | _ => simp_all

/-- Settles O28: under the invariant one of the transitions in Header answers. -/
theorem headerByteIsStoredAndCounted : Obligations.HeaderByteIsStoredAndCounted := by
  unfold Obligations.HeaderByteIsStoredAndCounted
  intro s din seed hs hst
  obtain ⟨t, hstep⟩ := hs.byteStep din
  obtain ⟨st, hidx, pidx, rfl, hcase⟩ := hstep.header_cases hst
  refine ⟨commandStep_byte_of_decode (decodeByte_of_st hst din) seed, _, hstep.exec_row hst din,
    Memory.read_write_self _ _ _, fun i hi => Memory.read_write_of_ne _ _ hi.symm, rfl, rfl, rfl, rfl, rfl, rfl, rfl,
    rfl, fun he => ?_, fun hne => ?_⟩
  · obtain ⟨_, hidx, l, hl, hcase⟩ | ⟨hne, _⟩ := hcase
    · refine ⟨hidx, l, hl, fun hpos => ?_, fun hz => ?_⟩
      · obtain ⟨_, hend⟩ | ⟨hz, _⟩ := hcase
        · exact hend
        · omega
      · obtain ⟨hpos, _⟩ | ⟨_, hend⟩ := hcase
        · omega
        · exact hend
    · exact absurd he hne
  · obtain ⟨he, _⟩ | ⟨_, hmore⟩ := hcase
    · exact absurd he hne
    · exact hmore

/-- Every transition in Payload stores the byte, and counts it or ends the payload (R103). -/
theorem ByteStep.payload_cases {b : Byte} {s t : State} (h : ByteStep b s t) (hst : s.st = .payload) :
    ∃ st pidx l, t = emit .needMore { afterPayloadByte b s with st := st, pidx := pidx } ∧
      declaredLen s = some l ∧
      ((s.pidx.toNat + 1 = l.toNat ∧ st = .checksumLow ∧ pidx = s.pidx) ∨
       (s.pidx.toNat + 1 ≠ l.toNat ∧ st = .payload ∧ pidx.toNat = s.pidx.toNat + 1)) := by
  cases h with
  | payloadMore l _ hi hl hne => exact ⟨_, _, l, rfl, hl, .inr ⟨hne, hst, by bv_omega⟩⟩
  | payloadDone l _ hi hl he => exact ⟨_, _, l, rfl, hl, .inl ⟨he, rfl, rfl⟩⟩
  | _ => simp_all

/-- Settles O30: under the invariant one of the two transitions in Payload answers. -/
theorem payloadByteIsStoredAndCounted : Obligations.PayloadByteIsStoredAndCounted := by
  unfold Obligations.PayloadByteIsStoredAndCounted
  intro s din seed hs hst
  obtain ⟨t, hstep⟩ := hs.byteStep din
  obtain ⟨st, pidx, l, rfl, hl, hcase⟩ := hstep.payload_cases hst
  refine ⟨commandStep_byte_of_decode (decodeByte_of_st hst din) seed, _, l, hstep.exec_row hst din, hl,
    Memory.read_write_self _ _ _, fun i hi => Memory.read_write_of_ne _ _ hi.symm, rfl, rfl, rfl, rfl, rfl, rfl, rfl,
    rfl, rfl, fun he => ?_, fun hne => ?_⟩
  · obtain ⟨_, hdone⟩ | ⟨hne, _⟩ := hcase
    · exact hdone
    · exact absurd he hne
  · obtain ⟨he, _⟩ | ⟨_, hmore⟩ := hcase
    · exact absurd he hne
    · exact hmore

/-! ### FINALIZE -/

/-- The end of a frame writes `st` and the outputs. -/
theorem endWith_eq (s : State) (v : Except RejCause Message) :
    endWith s v = { s with st := .awaitSync, out := verdictResult v } := by
  cases v <;> rfl

/-- FINALIZE ends the frame with its decision. -/
theorem finalize_of_verdict {c : Config} {s : State} {v : Except RejCause Message} (h : finalVerdict c s = some v) :
    finalize c s = .next { s with st := .awaitSync, out := verdictResult v } :=
  finalize_eq_next.2 ⟨v, h, (endWith_eq s v).symm⟩

/-- The three results of FINALIZE (R107); OVERSIZE is none of them. -/
theorem verdictResult_cases {c : Config} {s : State} {v : Except RejCause Message} (h : finalVerdict c s = some v) :
    verdictResult v = .frameRejected .noExtra ∨ verdictResult v = .frameRejected .crcMismatch ∨
      ∃ m, verdictResult v = .frameReady m := by
  obtain ⟨m, _, ⟨_, rfl⟩ | ⟨x, crc, _, _, ⟨_, rfl⟩ | ⟨_, msg, _, rfl⟩⟩⟩ := finalVerdict_eq_some.1 h
  · exact .inl rfl
  · exact .inr (.inl rfl)
  · exact .inr (.inr ⟨msg, rfl⟩)

/-- Under the invariant a frame with its whole payload can be decided, whatever its checksum bytes. -/
theorem FdInv.finalVerdict {s : State} (hs : FdInv s) (hst : s.st = .checksumHigh ∨ s.st = .signature) (crc : Crc) :
    ∃ v, finalVerdict Config.hw { s with crcRx := crc } = some v := by
  obtain ⟨φ, hφ⟩ := hs.inPhase
  obtain ⟨v2, h, p, hold, hp, _⟩ := hφ.holds_folded (.inr hst)
  exact ⟨_, finalVerdict_of_holds (s := { s with crcRx := crc })
    ⟨hold.ver2, hold.hdr, hold.full, hold.pay, hold.sgn⟩ hp⟩

/-- Settles O32: the flags decide between Signature and FINALIZE, and the invariant lets FINALIZE answer. -/
theorem checksumHighByteEndsAnUnsignedFrame : Obligations.ChecksumHighByteEndsAnUnsignedFrame := by
  unfold Obligations.ChecksumHighByteEndsAnUnsignedFrame
  intro s din seed hs hst
  have hexec : exec (.decCksumHi din) s =
      afterChecksum Config.hw { s with crcRx := withHighByte s.crcRx din } := rfl
  refine ⟨commandStep_byte_of_decode (decodeByte_of_st hst din) seed, withHighByte s.crcRx din,
    toNat_withHighByte s.crcRx din, fun hv hsg => if_pos ⟨hv, hsg⟩, fun hu => ?_⟩
  have hfin : exec (.decCksumHi din) s = finalize Config.hw { s with crcRx := withHighByte s.crcRx din } :=
    hexec.trans (if_neg hu)
  obtain ⟨v, hv⟩ := hs.finalVerdict (.inl hst) (withHighByte s.crcRx din)
  exact ⟨hfin, verdictResult v, hfin.trans (finalize_of_verdict hv), verdictResult_cases hv⟩

/-- Settles O33: the counter decides, and the invariant lets FINALIZE answer. -/
theorem signatureBytesAreCountedAndDiscarded : Obligations.SignatureBytesAreCountedAndDiscarded := by
  unfold Obligations.SignatureBytesAreCountedAndDiscarded
  intro s din din' seed hs hst
  refine ⟨commandStep_byte_of_decode (decodeByte_of_st hst din) seed, rfl, fun hne => ?_, fun he => ?_⟩
  · have hle := hs.sidx_bound
    exact ⟨s.sidx + 1, by bv_omega, if_neg hne⟩
  · have hfin : exec (.decSigByte din) s = finalize Config.hw s := if_pos he
    obtain ⟨v, hv⟩ := hs.finalVerdict (.inr hst) s.crcRx
    exact ⟨hfin, verdictResult v, hfin.trans (finalize_of_verdict hv), verdictResult_cases hv⟩

/-- Settles O34: the three cases of the decision on a captured frame. -/
theorem finalizeDecidesTheFrame : Obligations.FinalizeDecidesTheFrame := by
  unfold Obligations.FinalizeDecidesTheFrame
  intro s header payload m sysid compid len hh hp hl hm hsys hcomp
  refine ⟨fun h0 h253 => ?_, fun extra hextra => ?_⟩
  · exact finalize_of_verdict
      (finalVerdict_eq_some.2 ⟨m, hm, .inl ⟨extraOf_hw_eq_none_iff.2 ⟨h0, h253⟩, rfl⟩⟩)
  · have hx : extraOf Config.hw m = some extra := by
      obtain ⟨rfl, rfl⟩ | ⟨rfl, rfl⟩ := hextra <;> rfl
    have hcrc : frameCrcOf Config.hw s extra = some (frameCrc Config.hw header payload extra) :=
      frameCrcOf_eq_some.2 ⟨header, payload, hh, hp, rfl⟩
    refine ⟨fun hne => ?_, fun heq => ?_⟩
    · exact finalize_of_verdict
        (finalVerdict_eq_some.2 ⟨m, hm, .inr ⟨extra, _, hx, hcrc, .inl ⟨hne, rfl⟩⟩⟩)
    · have hmsg : messageOf s m = some { msgid := m, sysid := sysid, compid := compid, len := len,
                                         payload := payload, v2 := s.ver2, signed := s.sgn } :=
        messageOf_eq_some.2 ⟨rfl, hsys, hcomp, hl, hp, rfl, rfl⟩
      exact finalize_of_verdict
        (finalVerdict_eq_some.2 ⟨m, hm, .inr ⟨extra, _, hx, hcrc, .inr ⟨heq, _, hmsg, rfl⟩⟩⟩)

/-! ### What holds of every DEC_BYTE -/

/-- The results of a DEC_BYTE: NEED_MORE or one of FINALIZE's (R95). -/
theorem ByteStep.result_cases {b : Byte} {s t : State} (h : ByteStep b s t) :
    t.out = .needMore ∨ t.out = .frameRejected .noExtra ∨ t.out = .frameRejected .crcMismatch ∨
      ∃ m, t.out = .frameReady m := by
  obtain hn | ⟨v, hv, ho⟩ := h.out_cases
  · exact .inl hn
  · rw [ho]; exact .inr (verdictResult_cases hv)

/-- Settles O29: the length check precedes every other one; here no length byte exceeds `MAX_PAYLOAD`, and FINALIZE
gives other causes. -/
theorem oversizeIsRejectedAtOnceAndUnreachableHere : Obligations.OversizeIsRejectedAtOnceAndUnreachableHere := by
  unfold Obligations.OversizeIsRejectedAtOnceAndUnreachableHere
  constructor
  · intro c s din hi hpos hover
    have h0 : s.hidx.toNat = 0 := by rw [hi]; rfl
    refine ⟨takeRejection .oversize { s with hdr := Memory.write s.hdr 0 din }, ?_, rfl, rfl, rfl,
      Memory.read_write_self _ _ _, fun i hne => Memory.read_write_of_ne _ _ hne.symm, rfl⟩
    exact headerByte_eq_next.2 ⟨h0 ▸ hpos, .inl ⟨h0, hover, by rw [h0]⟩⟩
  · intro w s t h
    by_cases hw : cmdField w = 0b001#3
    · obtain ho | ho | ho | ⟨m, ho⟩ := (byteStep_of_commandStep h hw).result_cases <;> simp [ho]
    · simp [commandStep_next_out_none h hw]

/-- Settles O39: the invariant gives a transition, and no transition reads or writes `crc_acc`. -/
theorem decByteAlwaysAnswers : Obligations.DecByteAlwaysAnswers := by
  unfold Obligations.DecByteAlwaysAnswers
  intro s din seed hs
  obtain ⟨t, hstep⟩ := hs.byteStep din
  have hcmd : commandStep (packWord 0b001#3 din seed) s = .next t := by
    rw [commandStep_byte]; exact exec_decodeByte_next.2 hstep
  have hfd : isCuWord (packWord 0b001#3 din seed) = false := by simp [isCuWord]
  obtain ⟨_, hcodes, _⟩ := stateAndResultCodes
  obtain ⟨_, _, hrej, _, hcause, _⟩ := hcodes t.out
  refine ⟨t, hcmd, hstep.crcAcc_eq, fun a => (commandStep_fd hcmd hfd a).2, ?_, fun hc => hrej.1 (hcause.1 hc)⟩
  obtain ho | ho | ho | hm := hstep.result_cases
  · exact .inl ho
  · exact .inr (.inl ⟨_, ho⟩)
  · exact .inr (.inl ⟨_, ho⟩)
  · exact .inr (.inr hm)

/-! ### Where a frame ends (R109, R114) -/

@[simp] theorem endsFrame_needMore : Result.needMore.endsFrame = false := rfl

@[simp] theorem endsFrame_verdictResult (v : Except RejCause Message) : (verdictResult v).endsFrame = true := by
  cases v <;> rfl

/-- Outside AwaitSync a byte returns to AwaitSync exactly with a result that ends the frame. -/
theorem ByteStep.awaitSync_iff_endsFrame {b : Byte} {s t : State} (h : ByteStep b s t) (hst : s.st ≠ .awaitSync) :
    t.st = .awaitSync ↔ t.out.endsFrame = true := by
  cases h with
  | syncV2 ha => exact absurd ha hst
  | syncV1 ha => exact absurd ha hst
  | discard ha => exact absurd ha hst
  | checksumHighFinal v => simp [endWith_out]
  | signatureFinal v => simp [endWith_out]
  | _ => simp_all

/-- Outside AwaitSync the decoder stays in Header only by a header byte that is counted. -/
theorem ByteStep.header_of_header {b : Byte} {s t : State} (h : ByteStep b s t) (hst : s.st ≠ .awaitSync)
    (ht : t.st = .header) : s.st = .header ∧ t.hidx.toNat = s.hidx.toNat + 1 := by
  cases h with
  | syncV2 ha => exact absurd ha hst
  | syncV1 ha => exact absurd ha hst
  | headerMore hh hi => exact ⟨hh, show (s.hidx + 1).toNat = _ by bv_omega⟩
  | _ => simp_all

/-- In AwaitSync a byte emits NEED_MORE. -/
theorem ByteStep.needMore_of_awaitSync {b : Byte} {s t : State} (h : ByteStep b s t) (hst : s.st = .awaitSync) :
    t.out = .needMore := by
  cases h with
  | checksumHighFinal v hh => simp [hst] at hh
  | signatureFinal v hh => simp [hst] at hh
  | _ => rfl

/-- Settles O47: the transitions outside AwaitSync, and those in it. -/
theorem aFrameEndsOnlyWithItsResult : Obligations.AFrameEndsOnlyWithItsResult := by
  unfold Obligations.AFrameEndsOnlyWithItsResult
  intro w s t h hw
  have hstep := byteStep_of_commandStep h hw
  refine ⟨fun hst => ⟨hstep.awaitSync_iff_endsFrame hst, ?_, hstep.header_of_header hst⟩,
    hstep.needMore_of_awaitSync⟩
  by_contra hne
  exact hst (hstep.ver2_change hne).1

end Sys2Proof.Machine
end

section
/-! PROOF. The family of 60_exceptions.md: the refusal (R140), the fault (R139) and the rejections (R130 to R137). -/

namespace Sys2Proof.Machine

/-! ### No DEC_BYTE is refused -/

theorem endHeader_ne_refused {s : State} {r : Refusal} : endHeader s ≠ .refused r := by
  unfold endHeader
  cases declaredLen s with
  | none => simp
  | some l => by_cases hpos : 0 < l.toNat <;> simp [hpos]

theorem headerByte_ne_refused {c : Config} {din : Byte} {s : State} {r : Refusal} :
    headerByte c din s ≠ .refused r := by
  unfold headerByte checkHeaderByte advanceHeader
  cases Memory.store (hdrSize c) s.hdr s.hidx.toNat din with
  | none => simp
  | some hdr =>
    dsimp only
    split
    · simp
    · split
      · exact endHeader_ne_refused
      · simp

theorem payloadByte_ne_refused {c : Config} {din : Byte} {s : State} {r : Refusal} :
    payloadByte c din s ≠ .refused r := by
  unfold payloadByte advancePayload
  cases Memory.store c.maxPayload s.pay s.pidx.toNat din with
  | none => simp
  | some pay =>
    dsimp only
    split
    · simp
    · split <;> simp

theorem afterChecksum_ne_refused {c : Config} {s : State} {r : Refusal} : afterChecksum c s ≠ .refused r := by
  unfold afterChecksum
  split
  · simp
  · exact finalize_ne_refused

theorem signatureByte_ne_refused {c : Config} {s : State} {r : Refusal} : signatureByte c s ≠ .refused r := by
  unfold signatureByte
  split
  · exact finalize_ne_refused
  · simp

/-- No row of DEC_BYTE refuses, in any state (R140). -/
theorem exec_decodeByte_ne_refused {st : ParserState} {b : Byte} {s : State} {r : Refusal} :
    exec (decodeByte Config.hw st b) s ≠ .refused r := by
  cases st with
  | awaitSync =>
    rw [exec_decodeByte_awaitSync]
    split
    · simp
    · split <;> simp
  | header => exact headerByte_ne_refused
  | payload => exact payloadByte_ne_refused
  | checksumLow => exact fun h => nomatch h
  | checksumHigh => exact afterChecksum_ne_refused
  | signature => exact signatureByte_ne_refused

/-! ### The refusal and the fault of a command, beside the next states of `commandStep_next` -/

/-- Every way in which a command is refused (30_encoding.md R58). -/
theorem commandStep_refused {w : CmdWord} {s : State} {r : Refusal} :
    commandStep w s = .refused r ↔
      r = .reservedCmd ∧ (cmdField w = 0b011#3 ∨ cmdField w = 0b110#3 ∨ cmdField w = 0b111#3) := by
  unfold commandStep
  rcases decode_cases Config.hw s.st w with ⟨hc, hd⟩ | ⟨hc, hd⟩ | ⟨hc, hd⟩ | ⟨hc, hd⟩ | ⟨hc, hd⟩ | ⟨hc, hd⟩ |
    ⟨hc, hd⟩ | ⟨hc, hd⟩ <;> rw [hd, hc]
  · simp [exec, execNop]
  · simp [exec_decodeByte_ne_refused]
  · simp [exec, execDecClear]
  · simp [exec, execReserved011, refuseReserved, eq_comm]
  · simp [exec, execCrcSeed]
  · simp only [exec, execCrcAcc]
    cases s.crcAcc <;> simp
  · simp [exec, execReserved110, refuseReserved, eq_comm]
  · simp [exec, execReserved111, refuseReserved, eq_comm]

/-- Every way in which a command faults: a DEC_BYTE whose row does, which no state under the invariant has, or a
CRC_ACC without a value in `crc_acc` (40_crc.md R87). -/
theorem commandStep_fault {w : CmdWord} {s : State} {f : Fault} :
    commandStep w s = .fault f ↔
      (cmdField w = 0b001#3 ∧ exec (decodeByte Config.hw s.st (dinField w)) s = .fault f) ∨
      (f = .crcUnseeded ∧ cmdField w = 0b101#3 ∧ s.crcAcc = none) := by
  unfold commandStep
  rcases decode_cases Config.hw s.st w with ⟨hc, hd⟩ | ⟨hc, hd⟩ | ⟨hc, hd⟩ | ⟨hc, hd⟩ | ⟨hc, hd⟩ | ⟨hc, hd⟩ |
    ⟨hc, hd⟩ | ⟨hc, hd⟩ <;> rw [hd, hc]
  · simp [exec, execNop]
  · simp
  · simp [exec, execDecClear]
  · simp [exec, execReserved011, refuseReserved]
  · simp [exec, execCrcSeed]
  · simp only [exec, execCrcAcc]
    cases s.crcAcc <;> simp [eq_comm]
  · simp [exec, execReserved110, refuseReserved]
  · simp [exec, execReserved111, refuseReserved]

/-- Under the invariant a byte never faults: it has a transition (41_decoder.md R95). -/
theorem FdInv.exec_decodeByte_ne_fault {s : State} (hs : FdInv s) (b : Byte) (f : Fault) :
    exec (decodeByte Config.hw s.st b) s ≠ .fault f := by
  obtain ⟨t, ht⟩ := hs.byteStep b
  rw [exec_decodeByte_next.2 ht]
  simp

/-- Settles O8: the reserved rows refuse, and no other row does. -/
theorem onlyReservedCodesAreRefused : Obligations.OnlyReservedCodesAreRefused := by
  unfold Obligations.OnlyReservedCodesAreRefused
  exact ⟨fun _ _ _ => commandStep_refused, fun _ => ⟨rfl, rfl, rfl⟩⟩

/-- Settles O9: of the two ways to fault, the invariant leaves CRC_ACC's. -/
theorem onlyUnseededAccumulationFaults : Obligations.OnlyUnseededAccumulationFaults := by
  unfold Obligations.OnlyUnseededAccumulationFaults
  refine ⟨fun s w f hs => ?_, fun s => ?_⟩
  · rw [commandStep_fault]
    exact or_iff_right fun hbyte => hs.exec_decodeByte_ne_fault _ f hbyte.2
  · unfold readCrcOut
    rw [crcOut_eq_crcAcc]
    cases s.crcAcc <;> simp

/-! ### Rejections -/

/-- A rejection is FINALIZE's at the last byte of a frame, CKSUM_HI of an unsigned one (`crc` then holds this byte) or
the 13th SIG_BYTE, and takes the rejection on the state with this checksum (R137, 41_decoder.md R105 to R107). -/
theorem ByteStep.rejection {b : Byte} {s t : State} {k : RejCause} (h : ByteStep b s t)
    (ho : t.out = .frameRejected k) :
    ∃ crc, t = takeRejection k { s with crcRx := crc } ∧
      finalVerdict Config.hw { s with crcRx := crc } = some (.error k) ∧
      ((s.st = .checksumHigh ∧ ¬(s.ver2 = true ∧ s.sgn = true) ∧ crc = withHighByte s.crcRx b) ∨
       (s.st = .signature ∧ s.sidx.toNat + 1 = 13 ∧ crc = s.crcRx)) := by
  cases h with
  | checksumHighFinal v hst hu hv =>
    cases verdictResult_inj (v' := .error k) ((endWith_out _ v).symm.trans ho)
    exact ⟨_, rfl, hv, .inl ⟨hst, hu, rfl⟩⟩
  | signatureFinal v hst he hv =>
    cases verdictResult_inj (v' := .error k) ((endWith_out s v).symm.trans ho)
    exact ⟨_, rfl, hv, .inr ⟨hst, he, rfl⟩⟩
  | _ => cases ho

/-- Only a DEC_BYTE emits FRAME_REJECTED (30_encoding.md R57). -/
theorem decByte_of_frameRejected {w : CmdWord} {s t : State} {k : RejCause} (h : commandStep w s = .next t)
    (ho : t.out = .frameRejected k) : cmdField w = 0b001#3 := by
  by_contra hw
  rw [commandStep_next_out_none h hw] at ho
  cases ho

theorem withHighByte_toNat_mod (crc : Crc) (b : Byte) : (withHighByte crc b).toNat % 256 = crc.toNat % 256 := by
  rw [toNat_withHighByte]; omega

/-- Settles O43: `takeRejection` writes `st` and the outputs, and the byte before it at most the high byte of
`crc_rx`. -/
theorem rejectionSavesNothing : Obligations.RejectionSavesNothing := by
  unfold Obligations.RejectionSavesNothing
  intro w s t k h ho
  have hw := decByte_of_frameRejected h ho
  obtain ⟨crc, rfl, _, hwhere⟩ := (byteStep_of_commandStep h hw).rejection ho
  refine ⟨hw, rfl, rfl, rfl, rfl, rfl, rfl, rfl, rfl, rfl, fun _ => rfl, fun hne => ?_, ?_⟩
  · obtain ⟨hst, _⟩ | ⟨_, _, hcrc⟩ := hwhere
    · exact absurd hst hne
    · exact hcrc
  · rw [takeRejection_crcRx]
    obtain ⟨_, _, rfl⟩ | ⟨_, _, rfl⟩ := hwhere
    · exact withHighByte_toNat_mod _ _
    · rfl

/-- FINALIZE's two causes and their reasons (R132, R133); OVERSIZE is neither. -/
theorem finalVerdict_eq_error {c : Config} {s : State} {k : RejCause} :
    finalVerdict c s = some (.error k) ↔
      ∃ m, msgidOf s = some m ∧
        ((k = .noExtra ∧ extraOf c m = none) ∨
         (k = .crcMismatch ∧ ∃ x crc, extraOf c m = some x ∧ frameCrcOf c s x = some crc ∧ crc ≠ s.crcRx)) := by
  constructor
  · intro h
    obtain ⟨m, hm, ⟨hx, hv⟩ | ⟨x, crc, hx, hcrc, ⟨hne, hv⟩ | ⟨_, _, _, hv⟩⟩⟩ := finalVerdict_eq_some.1 h
    · cases hv; exact ⟨m, hm, .inl ⟨rfl, hx⟩⟩
    · cases hv; exact ⟨m, hm, .inr ⟨rfl, x, crc, hx, hcrc, hne⟩⟩
    · cases hv
  · rintro ⟨m, hm, ⟨rfl, hx⟩ | ⟨rfl, x, crc, hx, hcrc, hne⟩⟩
    · exact finalVerdict_eq_some.2 ⟨m, hm, .inl ⟨hx, rfl⟩⟩
    · exact finalVerdict_eq_some.2 ⟨m, hm, .inr ⟨x, crc, hx, hcrc, .inl ⟨hne, rfl⟩⟩⟩

/-- Settles O44: the place is that of FINALIZE, and the reason is its decision's, which reads of the step's state what
the state before holds, and the received checksum. -/
theorem causesComeFromFinalize : Obligations.CausesComeFromFinalize := by
  unfold Obligations.CausesComeFromFinalize
  intro w s t k h ho
  obtain ⟨crc, rfl, hv, hwhere⟩ := (byteStep_of_commandStep h (decByte_of_frameRejected h ho)).rejection ho
  obtain ⟨m, hm, hcause⟩ := finalVerdict_eq_error.1 hv
  refine ⟨?_, m, hm, ?_⟩
  · obtain ⟨hst, hu, _⟩ | ⟨hst, he, _⟩ := hwhere
    · exact .inl ⟨hst, hu⟩
    · exact .inr ⟨hst, he⟩
  · obtain ⟨hk, hx⟩ | ⟨hk, x, sum, hx, hsum, hne⟩ := hcause
    · exact .inl ⟨hk, extraOf_hw_eq_none_iff.1 hx⟩
    · obtain ⟨header, payload, hh, hp, rfl⟩ := frameCrcOf_eq_some.1 hsum
      exact .inr ⟨hk, header, payload, x, hh, hp, hx, hne⟩

end Sys2Proof.Machine
end

section
/-! SUPPORT. Where a frame in progress ends: not before its result, and at the length that its own header declares. -/

namespace Sys2Proof.Machine

namespace Phase

variable {φ : Phase} {v2 : Bool}

/-- A byte that is taken with NEED_MORE ends no frame in progress (41_decoder.md R109). -/
theorem step_ne_idle (hφ : φ ≠ .idle) {b : Byte} (hb : (φ.step b).2 = .needMore) : (φ.step b).1 ≠ .idle := by
  cases φ with
  | idle => exact absurd rfl hφ
  | header v2 h =>
    by_cases he : h.length + 1 = if v2 then 9 else 5
    · rw [step_header_last he, headerDone]; split <;> simp
    · rw [step_header_more he]; simp
  | payload v2 h p =>
    by_cases he : p.length + 1 = listLen h
    · rw [step_payload_last he]; simp
    · rw [step_payload_more he]; simp
  | sumLow v2 h p => simp [step]
  | sumHigh v2 h p lo =>
    rw [step] at hb ⊢
    split at hb
    · next hs => simp [hs]
    · exact absurd hb (verdictResult_ne_needMore _)
  | sign v2 h p crc k =>
    rw [step] at hb ⊢
    split at hb
    · exact absurd hb (verdictResult_ne_needMore _)
    · next hk => simp [hk]

/-- A byte that is not the last of those that end a frame is taken with NEED_MORE, and the others end the frame. -/
theorem Ends.of_cons {b : Byte} {bs : List Byte} {r : Result} (h : Ends φ (b :: bs) r) (hbs : bs ≠ []) :
    (φ.step b).2 = .needMore ∧ Ends (φ.step b).1 bs r := by
  obtain ⟨n, hn, hrun⟩ := h
  obtain ⟨k, hk⟩ := Nat.exists_eq_succ_of_ne_zero (mt List.length_eq_zero_iff.1 hbs)
  obtain rfl : n = k + 1 := by rw [List.length_cons] at hn; omega
  rw [run_cons, List.replicate_succ, List.cons_append, Prod.mk.injEq, List.cons.injEq] at hrun
  obtain ⟨⟨hb, hrs⟩, hidle⟩ := hrun
  exact ⟨hb, k, hk, Prod.ext hrs hidle⟩

/-- A shorter run of the bytes that end a frame leaves it in progress. -/
theorem Ends.run_take_ne_idle {bs : List Byte} {r : Result} {m : Nat} (h : Ends φ bs r) (hφ : φ ≠ .idle)
    (hm : m < bs.length) : (φ.run (bs.take m)).2 ≠ .idle := by
  induction m generalizing φ bs with
  | zero => exact hφ
  | succ m ih =>
    cases bs with
    | nil => simp at hm
    | cons b bs =>
      rw [List.length_cons, Nat.add_lt_add_iff_right] at hm
      obtain ⟨hb, hrest⟩ := h.of_cons (List.ne_nil_of_length_pos (by omega))
      rw [List.take_succ_cons, run_cons]
      exact ih hrest (step_ne_idle hφ hb) hm

/-- A whole header, from the byte after the sync byte. -/
theorem quiet_whole_header {h : List Byte} (hlen : h.length = if v2 then 9 else 5) :
    Quiet (.header v2 []) h (headerDone v2 h) := by
  cases h with
  | nil => split at hlen <;> simp at hlen
  | cons b bs => exact quiet_header (h := []) (by rw [List.length_nil, Nat.zero_add, hlen])

/-- The first `n` bytes of a list that has them, set apart. -/
theorem exists_eq_append_of_le_length {bs : List Byte} {n : Nat} (h : n ≤ bs.length) :
    ∃ xs ys, bs = xs ++ ys ∧ xs.length = n :=
  ⟨bs.take n, bs.drop n, (List.take_append_drop n bs).symm, List.length_take_of_le h⟩

/-- Any 279 bytes after a sync byte begin with those of one frame, at least 7: header, declared payload, checksum and,
where the header is a signed one, signature (30_encoding.md R60 to R63). -/
theorem exists_ends_of_header (v2 : Bool) {bs : List Byte} (hbs : 279 ≤ bs.length) :
    ∃ fr rest r, bs = fr ++ rest ∧ 7 ≤ fr.length ∧ fr.length ≤ 279 ∧ Ends (.header v2 []) fr r := by
  have hsize : 5 ≤ (if v2 then 9 else 5) ∧ (if v2 then 9 else 5) ≤ 9 := by cases v2 <;> simp
  obtain ⟨h, bs, rfl, hh⟩ := exists_eq_append_of_le_length (n := if v2 then 9 else 5) (bs := bs) (by omega)
  have hlisted : listLen h < 256 := BitVec.isLt _
  rw [List.length_append] at hbs
  obtain ⟨p, bs, rfl, hp⟩ := exists_eq_append_of_le_length (n := listLen h) (bs := bs) (by omega)
  rw [List.length_append] at hbs
  obtain ⟨sum, bs, rfl, hsum⟩ := exists_eq_append_of_le_length (n := 2) (bs := bs) (by omega)
  obtain ⟨lo, hi, rfl⟩ := List.length_eq_two.1 hsum
  rw [List.length_append] at hbs
  obtain ⟨sig, rest, rfl, hsig⟩ := exists_eq_append_of_le_length (n := 13) (bs := bs) (by omega)
  have hend := (quiet_whole_header hh).ends ((quiet_headerDone hp).ends
    (ends_sumLow (lo := lo) (hi := hi) (sig := sig) fun _ => hsig))
  by_cases hs : listSigned v2 h = true
  · rw [if_pos hs] at hend
    refine ⟨_, rest, _, by simp, ?_, ?_, hend⟩ <;> simp only [List.length_append, hsum] <;> omega
  · rw [if_neg hs] at hend
    refine ⟨_, sig ++ rest, _, by simp, ?_, ?_, hend⟩ <;>
      simp only [List.length_append, List.length_nil, hsum] <;> omega

end Phase

/-- The parser state is AwaitSync exactly in the phase without a frame. -/
theorem InPhase.st_eq_awaitSync_iff {s : State} {φ : Phase} (h : InPhase s φ) : s.st = .awaitSync ↔ φ = .idle := by
  cases φ with
  | idle => exact iff_of_true h rfl
  | _ => simp [h.1]

end Sys2Proof.Machine
end

section
/-! PROOF. The family of 70_reset_and_hazards.md: reset and DEC_CLEAR (R150, R152), the unseeded window (R156), and
the bound on a frame (R158). -/

namespace Sys2Proof.Machine

/-- Settles O7: the values are those that `State.reset` lists. -/
theorem resetLeavesAwaitSyncAndNoValues : Obligations.ResetLeavesAwaitSyncAndNoValues := by
  unfold Obligations.ResetLeavesAwaitSyncAndNoValues
  exact ⟨rfl, rfl, rfl, Memory.read_nil, Memory.read_nil, rfl, rfl, rfl, rfl⟩

/-- `crc_acc` holds a value after a command exactly when it held one before or the command is CRC_SEED: CRC_ACC
answers a next state only where there is a value already. -/
theorem commandStep_next_seeded_iff {w : CmdWord} {s t : State} (h : commandStep w s = .next t) :
    t.crcAcc ≠ none ↔ s.crcAcc ≠ none ∨ cmdField w = 0b100 := by
  rcases commandStep_next.1 h with ⟨hc, rfl⟩ | ⟨hc, hb⟩ | ⟨hc, rfl⟩ | ⟨hc, rfl⟩ | ⟨hc, crc, ha, rfl⟩
  · simp [hc]
  · simp [hc, hb.crcAcc_eq]
  · simp [hc]
  · simp [hc]
  · simp [ha]

/-- Settles O23: whether `crc_acc` holds a value is said of every command, and CRC_ACC's fault is O15's. -/
theorem seedingIsForGood : Obligations.SeedingIsForGood := by
  unfold Obligations.SeedingIsForGood
  refine ⟨rfl, fun s din hs => ?_, fun w s t h hs hc => ?_, fun w s t h => (commandStep_next_seeded_iff h).2⟩
  · obtain ⟨_, _, hfault⟩ := crcAccFoldsOneByteOrFaults s din 0#16
    exact hfault hs
  · by_contra ht
    exact ((commandStep_next_seeded_iff h).1 ht).elim (absurd hs) hc

/-- Settles O49: DEC_CLEAR leaves AwaitSync with `crc_acc` as it was, and so does that reset; no later result tells two
such states apart (10_state.md R38). -/
theorem decClearIsAResetOfTheDecoder : Obligations.DecClearIsAResetOfTheDecoder := by
  unfold Obligations.DecClearIsAResetOfTheDecoder
  intro s
  obtain ⟨_, hclear⟩ := decClearReturnsToAwaitSync s 0#8 0#16
  exact ⟨_, hclear, rfl, fun ws => leftoverStateIsUnobservable ws _ _ rfl rfl rfl⟩

/-- Settles O54: the bytes after the sync byte begin with a frame's, which the decoder follows by its phase. -/
theorem aFrameEndsWithin279Bytes : Obligations.AFrameEndsWithin279Bytes := by
  unfold Obligations.AFrameEndsWithin279Bytes
  intro s sync bs hs hsync hbs
  obtain ⟨v2, hstep⟩ : ∃ v2, Phase.idle.step sync = (.header v2 [], .needMore) := by
    rcases hsync with rfl | rfl
    · exact ⟨true, rfl⟩
    · exact ⟨false, rfl⟩
  obtain ⟨fr, rest, r, rfl, hmin, hmax, hend⟩ := Phase.exists_ends_of_header v2 hbs
  refine ⟨fr.length, hmin, hmax, ?_, fun m hm => ?_⟩
  · obtain ⟨n, _, hrun⟩ := hend.cons hstep
    obtain ⟨t, hfeed, ht, _⟩ := feed_of_run hs hrun
    exact ⟨_, t, by rwa [List.take_left], ht⟩
  · obtain ⟨t, hfeed, ht, _⟩ := feed_inPhase (φ := .idle) hs (sync :: fr.take m)
    refine ⟨_, t, by rwa [List.take_append_of_le_length hm.le], fun ha => ?_⟩
    rw [ht.st_eq_awaitSync_iff, Phase.run_cons, hstep] at ha
    exact hend.run_take_ne_idle (by simp) hm ha

end Sys2Proof.Machine
end
